-- ==== Sys2Proof/Word.lean ====
section
/-! DEFINITION. The word types of the engine: all numbers are unsigned, nothing is sign-extended (00_scope.md R12). -/

namespace Sys2Proof

/-- One byte of memory, of the operand data stream and of the wire (10_state.md R23). -/
abbrev Byte := BitVec 8

/-- A 16-bit value: a frame length, a request id, a CRC (20_memory.md R31). -/
abbrev Half := BitVec 16

/-- A 32-bit value: an address or a byte count of `INIT`, the value of a response (30_encoding.md R64, R78). -/
abbrev Word := BitVec 32

/-- The 96-bit command word `W` of the command port (30_encoding.md R60, R61). -/
abbrev CmdWord := BitVec 96

end Sys2Proof
end

