-- ==== Sys2Proof/Config.lean ====
section
/-! DEFINITION. The configuration of the engine: what an implementation fixes and no command changes (00_scope.md R7, R8,
R9; 42_crc16.md R114). It is plain data: State carries it, constant, so that a step can read it (log 2). -/

namespace Sys2Proof

/-- The six-parameter family of 16-bit CRCs (42_crc16.md R114; the width is fixed at 16). -/
structure CrcParams where
  /-- `POLY`, the generator polynomial without its `x^16` term. -/
  poly : Half
  /-- `INIT`, the value CRCACC starts from. -/
  init : Half
  /-- `REFIN`: each input byte's bits are reversed. -/
  refin : Bool
  /-- `REFOUT`: the bits of the result are reversed before the final exclusive-or. -/
  refout : Bool
  /-- `XOROUT`, the final exclusive-or. -/
  xorout : Half
  deriving DecidableEq, Repr

/-- Which function `crc16` is. -/
inductive CrcAlg where
  /-- A member of the family of 42_crc16.md R114. -/
  | family (p : CrcParams)
  /-- Any other total function of the bytes alone, the `k`-th value of `Config.openCrc` (00_scope.md R9, 42_crc16.md
  R106): a claim that holds for this one holds for every `crc16`. -/
  | other (k : Nat)
  deriving DecidableEq, Repr

/-- FREE VALUE (log 10): a checksum function of which nothing is assumed but that it is a total function of the bytes
(42_crc16.md R106, R115). -/
opaque Config.openCrc : Nat → List Byte → Half

/-- The parameters of the hardware shell and of the protocol, each a named parameter of the model (00_scope.md R7, R8, R9;
92_eei_decisions.md, the OPEN parameters). -/
structure Config where
  /-- `AW`, the address width in bits: an address is a natural number `< 2^AW`. -/
  aw : Nat
  /-- `MAXLEN`, the largest byte count one data-carrying command can stream. -/
  maxLen : Nat
  /-- `GUARD_PUSH_BYTES`: whether `PUSH_BYTES` checks capacity before copying. -/
  guardPushBytes : Bool
  /-- `SYN0`, the SYN byte at the lower address. -/
  syn0 : Byte
  /-- `SYN1`, the SYN byte at the higher address. -/
  syn1 : Byte
  /-- `T_DSEQ`, frame type data-sequenced. -/
  tDseq : Byte
  /-- `T_DNSQ`, frame type data-non-sequenced. -/
  tDnsq : Byte
  /-- `T_ACK`, frame type ACK. -/
  tAck : Byte
  /-- `T_NAK`, frame type NAK. -/
  tNak : Byte
  /-- `PLT_CMD`, payload type command. -/
  pltCmd : Byte
  /-- The instantiation of `crc16`. -/
  crc : CrcAlg
  deriving DecidableEq, Repr

/-- What the spec lets a model assume of the configuration: `AW` in `1 .. 32`, `MAXLEN <= 65535` (92_eei_decisions.md, the
OPEN parameters), the four frame types pairwise distinct (00_scope.md R8), and nothing else. -/
def Config.wf (c : Config) : Bool :=
  decide (1 ≤ c.aw) && decide (c.aw ≤ 32) && decide (c.maxLen ≤ 65535) &&
  decide (c.tDseq ≠ c.tDnsq) && decide (c.tDseq ≠ c.tAck) && decide (c.tDseq ≠ c.tNak) &&
  decide (c.tDnsq ≠ c.tAck) && decide (c.tDnsq ≠ c.tNak) && decide (c.tAck ≠ c.tNak)

/-- One past the last address, `2^AW` (00_scope.md R7, 10_state.md R23). -/
def Config.addrTop (c : Config) : Nat := 2 ^ c.aw

end Sys2Proof
end

