-- ==== Sys2Proof/Machine/Params.lean ====
section
/-! DEFINITION. The spec's default configuration. The shell's parameters are the spec's decisions D2, D7 and D18; every
protocol constant and the CRC are marked in the spec "from general knowledge, not in source" and are PRESUMED here, unsafe
(log 3, log 4): a claim that needs one names `defaultConfig` in a hypothesis. -/

namespace Sys2Proof.Machine

/-- The default `crc16`, CRC-16/CCITT-FALSE (42_crc16.md R107, R114). PRESUMED, unsafe (log 4). -/
def ccittFalse : CrcParams :=
  { poly := 0x1021, init := 0xFFFF, refin := false, refout := false, xorout := 0x0000 }

/-- The defaults of 00_scope.md R7, R8 and R9. The constants of R8 are PRESUMED, unsafe (log 3). -/
def defaultConfig : Config :=
  { aw := 32
    maxLen := 65535
    guardPushBytes := true
    syn0 := 0xAA
    syn1 := 0x55
    tDseq := 0x80
    tDnsq := 0x00
    tAck := 0x40
    tNak := 0x04
    pltCmd := 0x80
    crc := .family ccittFalse }

end Sys2Proof.Machine
end

