-- ==== Sys2Proof/Machine/Crc.lean ====
section
/-! DEFINITION. The CRC-16 function and the arithmetic of the CRC unit (42_crc16.md R105 to R114). -/

namespace Sys2Proof.Machine

/-- One shift of the remainder: the bit shifted out of bit 15 is dropped, and where it was 1 the polynomial is added
(42_crc16.md R108, the body of the inner loop). -/
def crcShift (poly c : Half) : Half :=
  if c.msb then (c <<< 1) ^^^ poly else c <<< 1

/-- `n` shifts. -/
def crcShifts (poly : Half) : Nat → Half → Half
  | 0, c => c
  | n + 1, c => crcShifts poly n (crcShift poly c)

/-- `crc_step_poly(c, b, POLY)`: the byte into the top byte of the remainder, then eight shifts (42_crc16.md R108, R114). -/
def crcStep (poly c : Half) (b : Byte) : Half :=
  crcShifts poly 8 (c ^^^ (b.setWidth 16 <<< 8))

/-- A byte as the CRC unit takes it in: its bits reversed where REFIN is set (42_crc16.md R114). -/
def crcInput (p : CrcParams) (b : Byte) : Byte := if p.refin then b.reverse else b

/-- CRCACC after one more byte (42_crc16.md R112, R114). -/
def crcFeed (p : CrcParams) (c : Half) (b : Byte) : Half := crcStep p.poly c (crcInput p b)

/-- CRCACC after a whole byte sequence, loaded with the initial value before the first byte (42_crc16.md R112). For an
instantiation outside the family the value is the function's own. -/
def crcAccumulate (alg : CrcAlg) (d : List Byte) : Half :=
  match alg with
  | .family p => d.foldl (crcFeed p) p.init
  | .other k => Config.openCrc k d

/-- What the CRC unit hands on from CRCACC: reversed where REFOUT is set, then XORed with XOROUT (42_crc16.md R112, R114). -/
def crcFinish (alg : CrcAlg) (c : Half) : Half :=
  match alg with
  | .family p => (if p.refout then c.reverse else c) ^^^ p.xorout
  | .other _ => c

/-- `crc16`, a total function of the byte sequence alone (00_scope.md R9, 42_crc16.md R106). -/
def crc16 (alg : CrcAlg) (d : List Byte) : Half := crcFinish alg (crcAccumulate alg d)

/-- `T[i]` of the byte-table form, `crc_step(0, i)` (42_crc16.md R109). -/
def crcTable (poly : Half) (i : Byte) : Half := crcStep poly 0 i

/-- The byte-table form of one step (42_crc16.md R109); R108's form governs, and the two are proved equal. -/
def crcStepTable (poly c : Half) (b : Byte) : Half :=
  (c <<< 8) ^^^ crcTable poly ((c >>> 8).setWidth 8 ^^^ b)

end Sys2Proof.Machine
end

