-- ==== Sys2Proof/Syntax.lean ====
section
/-! DEFINITION. The abstract syntax of operations, the normative level of the spec (30_encoding.md R70). -/

namespace Sys2Proof

/-- The ten operations, one constructor per row of spec/opcode_table.json, with KSPEC's operands and no others
(30_encoding.md R61, R70). -/
inductive Instr where
  /-- `INIT storage, capacity` (40_cursor.md R81). -/
  | init (storage capacity : Word)
  /-- `BYTES_USED` (40_cursor.md R84). -/
  | bytesUsed
  /-- `PUSH_U16 value` (41_primitives.md R91). -/
  | pushU16 (value : Half)
  /-- `PUSH_BYTES [data]`, its bytes on the operand data stream (41_primitives.md R94). -/
  | pushBytes (data : List Byte)
  /-- `PUSH_CRC [data]`, its bytes on the operand data stream (41_primitives.md R98). -/
  | pushCrc (data : List Byte)
  /-- `PUSH_SYN` (43_builders.md R122). -/
  | pushSyn
  /-- `PUSH_FRAME type, length, seq` (43_builders.md R124). -/
  | pushFrame (type : Byte) (length : Half) (seq : Byte)
  /-- `PUSH_ACK seq` (43_builders.md R127). -/
  | pushAck (seq : Byte)
  /-- `PUSH_NAK` (43_builders.md R129). -/
  | pushNak
  /-- `PUSH_CMD seq, rqid, tc, tid, iid, cid, payload` (43_builders.md R130). -/
  | pushCmd (seq : Byte) (rqid : Half) (tc tid iid cid : Byte) (payload : List Byte)
  deriving DecidableEq, Repr

end Sys2Proof
end

