-- ==== Sys2Proof/WellFormed.lean ====
section
/-! DEFINITION. Which terms of the syntax are commands: a byte-sequence operand has at most MAXLEN bytes (30_encoding.md R62, R70). -/

namespace Sys2Proof

/-- The byte-sequence operand that a command carries on the operand data stream; empty for the formats without one
(30_encoding.md R62). -/
def Instr.stream : Instr → List Byte
  | .init _ _ => []
  | .bytesUsed => []
  | .pushU16 _ => []
  | .pushBytes data => data
  | .pushCrc data => data
  | .pushSyn => []
  | .pushFrame _ _ _ => []
  | .pushAck _ => []
  | .pushNak => []
  | .pushCmd _ _ _ _ _ _ payload => payload

/-- The term is one of R70's: `bytes` is a finite byte sequence of length `<= MAXLEN`.  Every other operand is of its
field's width by its type. -/
def Instr.wf (maxLen : Nat) (i : Instr) : Bool := decide (i.stream.length ≤ maxLen)

end Sys2Proof
end

