-- ==== Sys2Proof/Decode.lean ====
section
/-! DEFINITION. Decoding and encoding of commands: the 96-bit word with its operand data stream (30_encoding.md Part B,
R61 to R77, and spec/opcode_table.json). Total on any word and stream and on any bytes; every rejection has a name. -/

namespace Sys2Proof

/-- What the command port and the operand data stream carry for one command: the word `W` and the stream bytes the host
sent with it, first byte first (30_encoding.md R60, R62). -/
structure Command where
  word : CmdWord
  stream : List Byte
  deriving DecidableEq, Repr

/-- What decoding a pair (word, stream) gives. -/
inductive Decoded where
  /-- A command (30_encoding.md R71). -/
  | op (i : Instr)
  /-- An undefined opcode or a reserved bit that is set (30_encoding.md R72). -/
  | illegal
  /-- A legal word beside a number of stream bytes other than its own: the pair spells no command (30_encoding.md R62,
  93_implementation_defined.md U12). -/
  | noCommand
  deriving DecidableEq, Repr

/-- The seven command formats (30_encoding.md R63 to R69). -/
inductive Format where
  | n | i | v | d | f | a | c
  deriving DecidableEq, Repr

/-- The format of each defined opcode; none for every other value of `W[7:0]` (30_encoding.md R61, R72). -/
def formatOf (opcode : Byte) : Option Format :=
  match opcode.toNat with
  | 0x01 => some .i
  | 0x02 => some .n
  | 0x03 => some .v
  | 0x04 => some .d
  | 0x05 => some .d
  | 0x06 => some .n
  | 0x07 => some .f
  | 0x08 => some .a
  | 0x09 => some .n
  | 0x0A => some .c
  | _ => none

/-- The lowest reserved bit of a format: the bits from here up to bit 95 are reserved and must be zero
(30_encoding.md R63 to R69). -/
def Format.reservedFrom : Format → Nat
  | .n => 8
  | .i => 72
  | .v => 24
  | .d => 24
  | .f => 40
  | .a => 16
  | .c => 80

/-- The mask of a format: a word with a defined opcode is legal iff `W and mask = opcode` (95_test_vectors.md 2.5; the
`mask` column of spec/opcode_table.json). -/
def Format.mask : Format → CmdWord
  | .n => 0xFFFFFFFFFFFFFFFFFFFFFFFF
  | .i => 0xFFFFFF0000000000000000FF
  | .v => 0xFFFFFFFFFFFFFFFFFF0000FF
  | .d => 0xFFFFFFFFFFFFFFFFFF0000FF
  | .f => 0xFFFFFFFFFFFFFF00000000FF
  | .a => 0xFFFFFFFFFFFFFFFFFFFF00FF
  | .c => 0xFFFF000000000000000000FF

/-- The field `w[lo+n-1 : lo]` (00_scope.md R12). -/
def field (w : CmdWord) (lo n : Nat) : BitVec n := w.extractLsb' lo n

/-- `x` put into the word with its bit 0 at bit `lo`, zeros elsewhere. -/
def place {n : Nat} (lo : Nat) (x : BitVec n) : CmdWord := x.setWidth 96 <<< lo

/-- The opcode field `W[7:0]` (30_encoding.md R61). -/
def opcode (w : CmdWord) : Byte := field w 0 8

/-- The format of a legal word: a defined opcode, and every reserved bit of its format zero (30_encoding.md R71 steps 1
and 2); none for an illegal word (R72). -/
def legalFormat (w : CmdWord) : Option Format :=
  match formatOf (opcode w) with
  | none => none
  | some fmt => if w >>> fmt.reservedFrom = 0 then some fmt else none

/-- How many stream bytes a word calls for: its `len` field for formats D and C, none for every other word
(30_encoding.md R62, R66, R69, R74). -/
def streamLen (w : CmdWord) : Nat :=
  match legalFormat w with
  | some .d => (field w 8 16).toNat
  | some .c => (field w 64 16).toNat
  | _ => 0

/-- Cuts the fields of a legal word; the stream is the byte-sequence operand (30_encoding.md R71 steps 3 and 4, R63 to
R69). The opcode alone chooses the operation; none only for an undefined opcode. -/
def cutFields (w : CmdWord) (stream : List Byte) : Option Instr :=
  match (opcode w).toNat with
  | 0x01 => some (.init (field w 8 32) (field w 40 32))
  | 0x02 => some .bytesUsed
  | 0x03 => some (.pushU16 (field w 8 16))
  | 0x04 => some (.pushBytes stream)
  | 0x05 => some (.pushCrc stream)
  | 0x06 => some .pushSyn
  | 0x07 => some (.pushFrame (field w 8 8) (field w 16 16) (field w 32 8))
  | 0x08 => some (.pushAck (field w 8 8))
  | 0x09 => some .pushNak
  | 0x0A => some (.pushCmd (field w 8 8) (field w 16 16) (field w 32 8) (field w 40 8) (field w 48 8) (field w 56 8) stream)
  | _ => none

/-- Decode a pair (word, stream) (30_encoding.md R71): undefined opcode or a reserved bit set: `illegal`; a stream of
another length than the word calls for, or longer than MAXLEN: the pair spells no command (R62, R70). DEDUCED, safe: that
stray stream bytes beside a word of a format that carries none make it no command (log 12). -/
def decode (maxLen : Nat) (c : Command) : Decoded :=
  match legalFormat c.word with
  | none => .illegal
  | some _ =>
    if c.stream.length = streamLen c.word ∧ c.stream.length ≤ maxLen then
      match cutFields c.word c.stream with
      | some i => .op i
      | none => .illegal
    else .noCommand

/-- The 16-bit `len` field of a stream. -/
def lenField (stream : List Byte) : Half := BitVec.ofNat 16 stream.length

/-- The command word of an operation: fields into their bits, reserved bits zero (30_encoding.md R71, R63 to R69). -/
def encodeWord : Instr → CmdWord
  | .init storage capacity => place 0 (0x01 : Byte) ||| place 8 storage ||| place 40 capacity
  | .bytesUsed => place 0 (0x02 : Byte)
  | .pushU16 value => place 0 (0x03 : Byte) ||| place 8 value
  | .pushBytes data => place 0 (0x04 : Byte) ||| place 8 (lenField data)
  | .pushCrc data => place 0 (0x05 : Byte) ||| place 8 (lenField data)
  | .pushSyn => place 0 (0x06 : Byte)
  | .pushFrame type length seq => place 0 (0x07 : Byte) ||| place 8 type ||| place 16 length ||| place 32 seq
  | .pushAck seq => place 0 (0x08 : Byte) ||| place 8 seq
  | .pushNak => place 0 (0x09 : Byte)
  | .pushCmd seq rqid tc tid iid cid payload =>
    place 0 (0x0A : Byte) ||| place 8 seq ||| place 16 rqid ||| place 32 tc ||| place 40 tid ||| place 48 iid |||
      place 56 cid ||| place 64 (lenField payload)

/-- Encode: the inverse of `decode` on the legal pairs (30_encoding.md R71). -/
def encode (i : Instr) : Command := ⟨encodeWord i, i.stream⟩

/-- The 12 bytes of a command word, little-endian: byte 0 is the opcode `W[7:0]` (30_encoding.md R77). -/
def wordBytes (w : CmdWord) : List Byte :=
  [field w 0 8, field w 8 8, field w 16 8, field w 24 8, field w 32 8, field w 40 8,
   field w 48 8, field w 56 8, field w 64 8, field w 72 8, field w 80 8, field w 88 8]

/-- A command laid end to end: 12 bytes, and `len` more for formats D and C (30_encoding.md R74). -/
def Command.bytes (c : Command) : List Byte := wordBytes c.word ++ c.stream

/-- Reads one command off the front of any byte list: its word, little-endian, then as many stream bytes as the word calls
for, since a decoder knows the total size of a command from its word alone (30_encoding.md R74, R77); with it, the bytes
after the command. None where the bytes end before the command does. -/
def Command.ofBytes : List Byte → Option (Command × List Byte)
  | b0 :: b1 :: b2 :: b3 :: b4 :: b5 :: b6 :: b7 :: b8 :: b9 :: b10 :: b11 :: rest =>
    let w := place 0 b0 ||| place 8 b1 ||| place 16 b2 ||| place 24 b3 ||| place 32 b4 ||| place 40 b5 |||
      place 48 b6 ||| place 56 b7 ||| place 64 b8 ||| place 72 b9 ||| place 80 b10 ||| place 88 b11
    if streamLen w ≤ rest.length then some (⟨w, rest.take (streamLen w)⟩, rest.drop (streamLen w)) else none
  | _ => none

/-- The bytes of the command whose word is `w`, the bits from `nbits` up zero, with a stream of zeros as long as the word
calls for. -/
def tableBytes (nbits w : Nat) : List Byte :=
  let word : CmdWord := BitVec.ofNat 96 (w % 2 ^ nbits)
  wordBytes word ++ List.replicate (streamLen word) 0

/-- The command at the front of those bytes, as the byte-level decoder reads it. -/
def tableCommand (nbits w : Nat) : Option Command :=
  match Command.ofBytes (tableBytes nbits w) with
  | some (c, _) => some c
  | none => none

/-- The instruction the decoder reads from a word of spec/opcode_table.json, its operand stream zeros. -/
def decodeTableWord (nbits w : Nat) : Option Instr :=
  match tableCommand nbits w with
  | none => none
  | some c =>
    match decode 65535 c with
    | .op i => some i
    | .illegal => none
    | .noCommand => none

end Sys2Proof
end

