-- ==== Sys2Proof/Machine/State.lean ====
section
/-! DEFINITION. The state of the engine as plain data (10_state.md), the moves of its host (70_reset_and_hazards.md R187), the
reasons a step can stop, and the state after reset (10_state.md R27). -/

namespace Sys2Proof.Machine

/-- Why the machine stops with a fault: a closed list. -/
inductive Fault where
  /-- `PUSH_BYTES` with `GUARD_PUSH_BYTES = false` and data that does not fit (41_primitives.md R96, 60_exceptions.md R161):
  nothing is said of memory, `POS` or later commands. Raised by `execPushBytes`. Safe: the model stops where the reference
  corrupts memory (log 11). -/
  | writeOutsideWindow
  /-- The host writes a byte at an address that does not exist, `>= 2^AW` (10_state.md R23). Raised by the host's `write`
  move, by no command. Safe (log 15). -/
  | noSuchAddress
  deriving DecidableEq, Repr

/-- Why a step has no meaning: a closed list. -/
inductive Refusal where
  /-- An instruction without a meaning in the model. Raised by no arm: every instruction has its meaning. Safe. -/
  | notModelled (mnemonic : String)
  /-- The pair (word, stream) spells no command: a decoder rejects it at the boundary and the engine never sees it
  (30_encoding.md R62, 93_implementation_defined.md U12). Raised by the command port, by no instruction. Safe (log 12). -/
  | notACommand
  deriving DecidableEq, Repr

/-- The status of a response (60_exceptions.md R151). -/
inductive Status where
  /-- The operation ran and every guarded write succeeded. -/
  | ok
  /-- The operation ran and at least one guarded write was skipped. -/
  | capacity
  /-- Refused: `BOUND = 0` and the operation is not `INIT`. -/
  | unbound
  /-- Refused: undefined opcode or reserved bit set. -/
  | illegal
  /-- Refused: `INIT` window past `2^AW`, or `PUSH_CMD` with `8 + len > 65535`. -/
  | range
  deriving DecidableEq, Repr

/-- One response of the response port (30_encoding.md R78). -/
structure Response where
  status : Status
  value : Word
  deriving DecidableEq, Repr

/-- One move of the host, made only between commands (70_reset_and_hazards.md R187, 20_memory.md R48). The host's reads of
memory and of the `OVF` output have no effect on the engine and are no moves here. -/
inductive HostMove where
  /-- A command word with its stream on the command port (30_encoding.md R60, R62). -/
  | command (c : Command)
  /-- The reset input (30_encoding.md R60, 70_reset_and_hazards.md R175). -/
  | reset
  /-- The host writes one byte of its own storage (20_memory.md R48, 70_reset_and_hazards.md R187). -/
  | write (addr : Nat) (value : Byte)
  deriving DecidableEq, Repr

/-- The data memory `MEM` (10_state.md R23) as its written bytes: pairs of an address and a byte, addresses strictly
rising. An address that is not listed has no value in the model: it holds what the host left there (log 13). -/
abbrev Memory := List Host.Cell

/-- The hidden state of 10_state.md R25: used inside one operation, dead between operations, read by no later one. -/
structure Scratch where
  /-- `CRCACC`, the accumulator of the CRC unit (10_state.md R25(a), 42_crc16.md R112). -/
  crcAcc : Half
  /-- `BLK`, the block start (10_state.md R25(b), 43_builders.md R121). -/
  blk : Nat
  /-- The pending status of the current command (10_state.md R25(c), 40_cursor.md R80). -/
  pending : Status
  /-- `written(BLK, POS)`: the bytes the current command has written since `BLK` was latched, in address order, as the CRC
  unit receives them (00_scope.md R12, 43_builders.md R121; log 16). -/
  written : List Byte
  deriving DecidableEq, Repr

/-- The whole state (10_state.md R13, R22, R25; 30_encoding.md R60). -/
structure State where
  /-- The configuration; no step changes it. The model's own field, not the spec's state (log 2). -/
  cfg : Config
  /-- `BEGIN`: start of backing storage (10_state.md R14). -/
  beginAddr : Nat
  /-- `END`: one past the last writable byte (10_state.md R14). -/
  endAddr : Nat
  /-- `POS`: next byte to be written (10_state.md R14). -/
  pos : Nat
  /-- `BOUND`: the cursor registers hold a binding made by `INIT` (10_state.md R20). -/
  bound : Bool
  /-- `OVF`, sticky, and the engine's `OVF` output (10_state.md R21, 30_encoding.md R60). -/
  ovf : Bool
  /-- `MEM` (10_state.md R23). -/
  mem : Memory
  /-- Hidden state (10_state.md R25). -/
  scratch : Scratch
  /-- The host's moves that the engine has not yet met, oldest first. The model's own field, an input (log 1). -/
  port : List HostMove
  /-- What the response port last produced; none since reset (30_encoding.md R78; log 8). -/
  resp : Option Response
  deriving DecidableEq, Repr

/-- Hidden state after reset: unspecified and dead (10_state.md R27); the values are the model's. DESIGN CHOICE, unsafe (log 7). -/
def Scratch.reset : Scratch := { crcAcc := 0, blk := 0, pending := .ok, written := [] }

/-- The engine right after reset (10_state.md R27, 70_reset_and_hazards.md R175): `BOUND = 0`, `OVF = 0`, memory with nothing
listed. `BEGIN`, `END`, `POS` are unspecified and unreadable; zero is the model's DESIGN CHOICE, unsafe (log 6). -/
def State.reset : State :=
  { cfg := defaultConfig
    beginAddr := 0
    endAddr := 0
    pos := 0
    bound := false
    ovf := false
    mem := []
    scratch := Scratch.reset
    port := []
    resp := none }

end Sys2Proof.Machine
end

