-- ==== Sys2Proof/Machine/Operands.lean ====
section
/-! DEFINITION. Operand assembly: how 16-bit operands, the frame header and the command block header become bytes
(00_scope.md R12, 20_memory.md R31, 30_encoding.md R51, R55, R57), and the codes of a response (60_exceptions.md R151). -/

namespace Sys2Proof.Machine

/-- `lo8(v)`, the least significant byte (00_scope.md R12). -/
def lo8 (v : Half) : Byte := v.extractLsb' 0 8

/-- `hi8(v)`, the most significant byte (00_scope.md R12). -/
def hi8 (v : Half) : Byte := v.extractLsb' 8 8

/-- A 16-bit field on the wire: little-endian, least significant byte first (20_memory.md R31). -/
def le16 (v : Half) : List Byte := [lo8 v, hi8 v]

/-- The SYN marker in wire order (20_memory.md R32, 43_builders.md R122). -/
def synMarker (c : Config) : List Byte := [c.syn0, c.syn1]

/-- The four header bytes of a frame (30_encoding.md R51, 43_builders.md R124). -/
def frameHeader (type : Byte) (length : Half) (seq : Byte) : List Byte :=
  [type, lo8 length, hi8 length, seq]

/-- The eight bytes of the command block header; `tid_in` is always zero (30_encoding.md R55, R58, 43_builders.md R131). -/
def blockHeader (c : Config) (rqid : Half) (tc tid iid cid : Byte) : List Byte :=
  [c.pltCmd, tc, tid, 0x00, iid, lo8 rqid, hi8 rqid, cid]

/-- The frame `length` of a command frame, `8 + n` (30_encoding.md R57); the exact sum wherever `n <= 65527`
(43_builders.md R133). -/
def cmdLength (payload : List Byte) : Half := BitVec.ofNat 16 (8 + payload.length)

/-- The code of a status (60_exceptions.md R151). -/
def Status.code : Status → Byte
  | .ok => 0x00
  | .capacity => 0x01
  | .unbound => 0x02
  | .illegal => 0x03
  | .range => 0x04

/-- A response packed as the 40-bit word `Q`: `Q[7:0] = status`, `Q[39:8] = value` (30_encoding.md R78). -/
def Response.pack (r : Response) : BitVec 40 := r.value ++ r.status.code

end Sys2Proof.Machine
end

