-- ==== Sys2Proof/Machine/Flags.lean ====
section
/-! DEFINITION. Every flag computation of the engine: the capacity guard, `OVF`, `BOUND` and the pending status
(10_state.md R20, R21; 40_cursor.md R80; 60_exceptions.md R153). There are no other condition codes (R21). -/

namespace Sys2Proof.Machine

/-- The capacity guard `POS + n <= END`, on natural numbers, never modular (10_state.md R17, 41_primitives.md R90). -/
def State.fits (s : State) (n : Nat) : Bool := decide (s.pos + n ≤ s.endAddr)

/-- `OVF <- 1` and pending status `<- CAPACITY` (10_state.md R21, 60_exceptions.md R153). -/
def State.flagCapacity (s : State) : State :=
  { s with ovf := true, scratch := { s.scratch with pending := .capacity } }

/-- The pending status starts at `OK` for every command, and the command has written nothing yet (40_cursor.md R80,
00_scope.md R12). -/
def State.start (s : State) : State :=
  { s with scratch := { s.scratch with pending := .ok, written := [] } }

/-- A new binding: the three cursor registers, `BOUND <- 1`, `OVF <- 0` (40_cursor.md R81). -/
def State.bindWindow (storage capacity : Nat) (s : State) : State :=
  { s with
    beginAddr := storage
    endAddr := storage + capacity
    pos := storage
    bound := true
    ovf := false }

end Sys2Proof.Machine
end

