-- ==== Sys2Proof/Machine/Ops.lean ====
section
/-! DEFINITION. The named operations over memory and state: byte reads and writes of `MEM`, the guarded write, the
capacity condition and the refusals (the engine's only exceptions: 60_exceptions.md), the CRC unit, the response, reset. -/

namespace Sys2Proof.Machine

/-- The byte at an address, none where nothing has written it (10_state.md R23; log 13). The engine never reads `MEM`
(20_memory.md R37): this is what the host, or a statement about the host, reads. -/
def Memory.read : Memory → Nat → Option Byte
  | [], _ => none
  | (a, v) :: rest, addr => if addr = a then some v else Memory.read rest addr

/-- Writes one byte, keeping the addresses strictly rising (10_state.md R23). -/
def Memory.write : Memory → Nat → Byte → Memory
  | [], addr, b => [(addr, b)]
  | (a, v) :: rest, addr, b =>
    if addr < a then (addr, b) :: (a, v) :: rest
    else if addr = a then (a, b) :: rest
    else (a, v) :: Memory.write rest addr b

/-- `MemWriteSeq(a, d)`: `d[i]` to `MEM[a+i]`, in increasing `i` (00_scope.md R12, 20_memory.md R34). -/
def Memory.writeSeq : Memory → Nat → List Byte → Memory
  | m, _, [] => m
  | m, addr, b :: d => Memory.writeSeq (Memory.write m addr b) (addr + 1) d

/-- Every listed address is above `bound`, and the rest rises strictly. -/
def Memory.risesFrom : Nat → Memory → Bool
  | _, [] => true
  | lo, (a, _) :: rest => decide (lo ≤ a) && Memory.risesFrom (a + 1) rest

/-- The canonical form: addresses strictly rising. No entry can equal what an unlisted address reads as, since that is no
value at all. -/
def Memory.wf (m : Memory) : Bool := Memory.risesFrom 0 m

/-- Every listed address exists: it is `< top` (10_state.md R23). -/
def Memory.below (top : Nat) (m : Memory) : Bool := m.all fun cell => decide (cell.1 < top)

/-- The unguarded half of a write: the bytes to `MEM` at `POS`, `POS` advanced past them, and the bytes to the CRC unit's
record of what this command has written (41_primitives.md R90, 43_builders.md R121). -/
def State.append (d : List Byte) (s : State) : State :=
  { s with
    mem := Memory.writeSeq s.mem s.pos d
    pos := s.pos + d.length
    scratch := { s.scratch with written := s.scratch.written ++ d } }

/-- `raise Capacity`: nothing written, `POS` unchanged, `OVF <- 1`, pending status `<- CAPACITY`; the recipe goes on
(60_exceptions.md R153, 00_scope.md R12). -/
def State.raiseCapacity (s : State) : State := s.flagCapacity

/-- The guarded write of the bytes `d` at `POS`, whole or not at all (41_primitives.md R90, 20_memory.md R36). -/
def State.gwrite (d : List Byte) (s : State) : State :=
  if s.fits d.length then s.append d else s.raiseCapacity

/-- A builder begins a block: `BLK <- POS`, from where the checksum that closes the block is taken (43_builders.md R121). -/
def State.latchBlock (s : State) : State :=
  { s with scratch := { s.scratch with blk := s.pos, written := [] } }

/-- One checksum computation of the CRC unit: CRCACC loaded with the initial value, then one step per byte
(42_crc16.md R112). -/
def State.runCrc (d : List Byte) (s : State) : State :=
  { s with scratch := { s.scratch with crcAcc := crcAccumulate s.cfg.crc d } }

/-- Appends the checksum of `d`, low byte first, through a guarded write of its own (41_primitives.md R98, 42_crc16.md
R112, R113). -/
def State.appendCrc (d : List Byte) (s : State) : State :=
  (s.runCrc d).gwrite (le16 (crcFinish s.cfg.crc (s.runCrc d).scratch.crcAcc))

/-- The checksum that closes a block: over `written(BLK, POS)`, never over a read-back of `MEM` (43_builders.md R121,
20_memory.md R37). -/
def State.closeBlock (s : State) : State := s.appendCrc s.scratch.written

/-- `respond(status, value)`, the single response a command produces (00_scope.md R12, 30_encoding.md R78). -/
def State.respond (status : Status) (value : Word) (s : State) : State :=
  { s with resp := some { status := status, value := value } }

/-- `refuse <Kind>`: the operation ends at once with that status and value 0, and no other change of any state
(00_scope.md R12, 60_exceptions.md R155 to R157; a next state, as R162 allows: log 9). -/
def refuse (kind : Status) (s : State) : Host.Outcome State Fault Refusal := .next (s.respond kind 0)

/-- The end of an operation that ran: its pending status, value 0 (40_cursor.md R80, 43_builders.md R120). -/
def State.finish (s : State) : State := s.respond s.scratch.pending 0

/-- An operation other than `INIT` that answers with its pending status: refused while `BOUND = 0`, else its recipe runs
from a fresh pending status (40_cursor.md R80, 60_exceptions.md R156). -/
def runPush (recipe : State → State) (s : State) : Host.Outcome State Fault Refusal :=
  if s.bound then .next (recipe s.start).finish else refuse .unbound s

/-- Reset of the engine, between commands: the state of 10_state.md R27; `MEM` is untouched, the host's queue and the
configuration are not the engine's (70_reset_and_hazards.md R175, R176; log 14). -/
def State.resetEngine (s : State) : State :=
  { State.reset with cfg := s.cfg, mem := s.mem, port := s.port }

end Sys2Proof.Machine
end

