-- ==== Sys2Proof/Machine/Builders.lean ====
section
/-! DEFINITION. The frame and packet builders `PUSH_SYN`, `PUSH_FRAME`, `PUSH_ACK`, `PUSH_NAK`, `PUSH_CMD`
(43_builders.md). -/

namespace Sys2Proof.Machine

/-- The SYN marker as one guarded 2-byte write (43_builders.md R122). -/
def synRecipe (s : State) : State := s.gwrite (synMarker s.cfg)

/-- The body of `PUSH_FRAME`: the four header bytes under one guard, then their checksum under its own; where the header
does not fit the checksum is skipped with it (43_builders.md R124, R125). -/
def frameRecipe (type : Byte) (length : Half) (seq : Byte) (s : State) : State :=
  if s.fits 4 then (s.latchBlock.append (frameHeader type length seq)).closeBlock
  else s.latchBlock.raiseCapacity

/-- The trailing checksum of an ACK or NAK: that of the empty payload (43_builders.md R127, R129). -/
def emptyCrcRecipe (s : State) : State := s.appendCrc []

/-- A frame without payload: SYN, header, checksum of nothing, one after another whatever became of the earlier ones
(43_builders.md R127, R129, R120). -/
def shortFrameRecipe (type seq : Byte) (s : State) : State :=
  emptyCrcRecipe (frameRecipe type 0 seq (synRecipe s))

/-- Steps 3 to 6 of `PUSH_CMD`: the block header under one guard, the payload under its own, and the checksum over what of
the two was written; where the block header does not fit the builder stops (43_builders.md R130, R131, R132). The payload
copy is guarded whatever `GUARD_PUSH_BYTES` is, as R130 writes it (DEDUCED, log 18). -/
def blockRecipe (rqid : Half) (tc tid iid cid : Byte) (payload : List Byte) (s : State) : State :=
  if s.fits 8 then ((s.latchBlock.append (blockHeader s.cfg rqid tc tid iid cid)).gwrite payload).closeBlock
  else s.latchBlock.raiseCapacity

/-- The recipe of `PUSH_CMD` (43_builders.md R130): SYN and frame header never stop the builder (R132). -/
def cmdRecipe (seq : Byte) (rqid : Half) (tc tid iid cid : Byte) (payload : List Byte) (s : State) : State :=
  blockRecipe rqid tc tid iid cid payload (frameRecipe s.cfg.tDseq (cmdLength payload) seq (synRecipe s))

/-- `PUSH_SYN` (43_builders.md R122). -/
def execPushSyn (s : State) : Host.Outcome State Fault Refusal := runPush synRecipe s

/-- `PUSH_FRAME type, length, seq`: `type` and `length` are written as given (43_builders.md R124 to R126). -/
def execPushFrame (type : Byte) (length : Half) (seq : Byte) (s : State) : Host.Outcome State Fault Refusal :=
  runPush (frameRecipe type length seq) s

/-- `PUSH_ACK seq` (43_builders.md R127). -/
def execPushAck (seq : Byte) (s : State) : Host.Outcome State Fault Refusal :=
  runPush (shortFrameRecipe s.cfg.tAck seq) s

/-- `PUSH_NAK` (43_builders.md R129): sequence 0. -/
def execPushNak (s : State) : Host.Outcome State Fault Refusal :=
  runPush (shortFrameRecipe s.cfg.tNak 0) s

/-- `PUSH_CMD` (43_builders.md R130 to R134): refused with `RANGE`, nothing written, where `8 + n` passes the 16-bit
`length` field (R133), but only after the `UNBOUND` check (60_exceptions.md R158). -/
def execPushCmd (seq : Byte) (rqid : Half) (tc tid iid cid : Byte) (payload : List Byte) (s : State) :
    Host.Outcome State Fault Refusal :=
  if s.bound && decide (65535 < 8 + payload.length) then refuse .range s
  else runPush (cmdRecipe seq rqid tc tid iid cid payload) s

end Sys2Proof.Machine
end

