-- ==== Sys2Proof/Machine/Cursor.lean ====
section
/-! DEFINITION. The cursor operations `INIT` and `BYTES_USED` (40_cursor.md). -/

namespace Sys2Proof.Machine

/-- The range check of `INIT`: the window runs past the top of the address space (40_cursor.md R83), or a field has a bit
set at or above `AW` (30_encoding.md R64, 60_exceptions.md R157). -/
def initOutOfRange (c : Config) (storage capacity : Nat) : Bool :=
  decide (c.addrTop ≤ storage) || decide (c.addrTop ≤ capacity) || decide (c.addrTop < storage + capacity)

/-- `INIT storage, capacity` (40_cursor.md R81 to R83): accepted with `BOUND = 0` too. -/
def execInit (storage capacity : Word) (s : State) : Host.Outcome State Fault Refusal :=
  if initOutOfRange s.cfg storage.toNat capacity.toNat then refuse .range s
  else .next ((s.start.bindWindow storage.toNat capacity.toNat).respond .ok 0)

/-- `bytes_used = POS - BEGIN` (10_state.md R18). -/
def State.bytesUsed (s : State) : Nat := s.pos - s.beginAddr

/-- `BYTES_USED` (40_cursor.md R84): `OK` even where `OVF = 1`. -/
def execBytesUsed (s : State) : Host.Outcome State Fault Refusal :=
  if s.bound then .next (s.start.respond .ok (BitVec.ofNat 32 s.bytesUsed)) else refuse .unbound s

end Sys2Proof.Machine
end

