-- ==== Sys2Proof/Machine/Primitives.lean ====
section
/-! DEFINITION. The buffer primitives `PUSH_U16`, `PUSH_BYTES`, `PUSH_CRC` (41_primitives.md). -/

namespace Sys2Proof.Machine

/-- `PUSH_U16 value` (41_primitives.md R91 to R93). -/
def execPushU16 (value : Half) (s : State) : Host.Outcome State Fault Refusal :=
  runPush (State.gwrite (le16 value)) s

/-- `PUSH_BYTES [data]` (41_primitives.md R94 to R97): the guarded copy of R95; with `GUARD_PUSH_BYTES = false` a copy that
does not fit is the fault of R96, and one that fits is R95's. -/
def execPushBytes (data : List Byte) (s : State) : Host.Outcome State Fault Refusal :=
  if s.bound && !s.cfg.guardPushBytes && !s.fits data.length then .fault .writeOutsideWindow
  else runPush (State.gwrite data) s

/-- `PUSH_CRC [data]` (41_primitives.md R98, R99): the data is not written, only its checksum. -/
def execPushCrc (data : List Byte) (s : State) : Host.Outcome State Fault Refusal :=
  runPush (State.appendCrc data) s

end Sys2Proof.Machine
end

