-- ==== Sys2Proof/Machine/Dispatch.lean ====
section
/-! DEFINITION. One arm per operation: the meaning of each (30_encoding.md R61). -/

namespace Sys2Proof.Machine

def exec (i : Instr) (s : State) : Host.Outcome State Fault Refusal :=
  match i with
  | .init storage capacity => Sys2Proof.Machine.execInit storage capacity s
  | .bytesUsed => Sys2Proof.Machine.execBytesUsed s
  | .pushU16 value => Sys2Proof.Machine.execPushU16 value s
  | .pushBytes data => Sys2Proof.Machine.execPushBytes data s
  | .pushCrc data => Sys2Proof.Machine.execPushCrc data s
  | .pushSyn => Sys2Proof.Machine.execPushSyn s
  | .pushFrame type length seq => Sys2Proof.Machine.execPushFrame type length seq s
  | .pushAck seq => Sys2Proof.Machine.execPushAck seq s
  | .pushNak => Sys2Proof.Machine.execPushNak s
  | .pushCmd seq rqid tc tid iid cid payload => Sys2Proof.Machine.execPushCmd seq rqid tc tid iid cid payload s

end Sys2Proof.Machine
end

