-- ==== Sys2Proof/Machine/Port.lean ====
section
/-! DEFINITION. The engine's interfaces to its host: how one move of the host is met (30_encoding.md R60, R62, R71;
70_reset_and_hazards.md R175, R187). -/

namespace Sys2Proof.Machine

/-- A command at the port: decoded (30_encoding.md R71), then run by `run`; an illegal word is answered `ILLEGAL` and
changes nothing else (60_exceptions.md R155); a pair that spells no command has no step (30_encoding.md R62). -/
def acceptCommand (run : Instr → State → Host.Outcome State Fault Refusal) (c : Command) (s : State) :
    Host.Outcome State Fault Refusal :=
  match decode s.cfg.maxLen c with
  | .op i => run i s
  | .illegal => refuse .illegal s
  | .noCommand => .refused .notACommand

/-- The host writes one byte of memory: an address `>= 2^AW` does not exist (10_state.md R23; log 15). -/
def hostWrite (addr : Nat) (value : Byte) (s : State) : Host.Outcome State Fault Refusal :=
  if addr < s.cfg.addrTop then .next { s with mem := Memory.write s.mem addr value }
  else .fault .noSuchAddress

/-- One move of the host, met by the engine (70_reset_and_hazards.md R187). -/
def meetMove (run : Instr → State → Host.Outcome State Fault Refusal) (m : HostMove) (s : State) :
    Host.Outcome State Fault Refusal :=
  match m with
  | .command c => acceptCommand run c s
  | .reset => .next s.resetEngine
  | .write addr value => hostWrite addr value s

/-- The oldest queued move is taken off the queue and met; with nothing queued the engine is idle and keeps all its state
(60_exceptions.md R168). -/
def serve (run : Instr → State → Host.Outcome State Fault Refusal) (s : State) : Host.Outcome State Fault Refusal :=
  match s.port with
  | [] => .next s
  | m :: rest => meetMove run m { s with port := rest }

/-- The host puts a command before whatever is queued. -/
def State.offer (c : Command) (s : State) : State := { s with port := .command c :: s.port }

end Sys2Proof.Machine
end

