-- ==== Sys2Proof/Machine/Step.lean ====
section
/-! DEFINITION. One step: the engine meets the oldest move of its host; a command is one step, run to completion
(00_scope.md R11). -/

namespace Sys2Proof.Machine

/-- One step (00_scope.md R11, 30_encoding.md R60). -/
def step (s : State) : Host.Outcome State Fault Refusal := serve exec s

/-- `s` with the command of an opcode-table word offered at the command port, its operand stream zeros, so that the next
step runs exactly it (log 1). -/
def State.withFetchWord (s : State) (nbits w : Nat) : State :=
  match tableCommand nbits w with
  | some c => s.offer c
  | none => s

end Sys2Proof.Machine
end

