-- ==== Sys2Proof/Machine/Asm.lean ====
section
/-! DEFINITION. The textual form of operations (30_encoding.md R75): one line of assembly read as an operation or as an error,
and an operation written as a line. There are no pseudo-instructions (R76). What R75 does not fix of the text (blanks, the
case of hexadecimal digits, empty lines) is in log 21. -/

namespace Sys2Proof.Machine

/-- The tokens of a line. -/
inductive Token where
  /-- A run of characters without blanks and punctuation: a mnemonic, a name, a number, a byte. -/
  | word (text : List Char)
  | comma
  | lbracket
  | rbracket
  | equals
  deriving DecidableEq, Repr

/-- What a line is. -/
inductive AsmLine where
  /-- Blanks and a comment only. -/
  | empty
  /-- One operation. -/
  | op (i : Instr)
  /-- An assembly error: no such line, or an operand out of its field's range (30_encoding.md R75). -/
  | error
  deriving DecidableEq, Repr

/-- Ends the word read so far, if there is one. -/
def endWord (text : List Char) (rest : List Token) : List Token :=
  match text with
  | [] => rest
  | _ :: _ => .word text :: rest

/-- Splits a line; `#` starts a comment (30_encoding.md R75). -/
def tokens (text : List Char) : List Char → List Token
  | [] => endWord text []
  | c :: cs =>
    if c = '#' then endWord text []
    else if c = ' ' ∨ c = '\t' ∨ c = '\r' ∨ c = '\n' then endWord text (tokens [] cs)
    else if c = ',' then endWord text (.comma :: tokens [] cs)
    else if c = '[' then endWord text (.lbracket :: tokens [] cs)
    else if c = ']' then endWord text (.rbracket :: tokens [] cs)
    else if c = '=' then endWord text (.equals :: tokens [] cs)
    else tokens (text ++ [c]) cs

/-- The value of a digit of a base up to 16, either case. -/
def digitValue (base : Nat) (c : Char) : Option Nat :=
  let v := if 48 ≤ c.toNat ∧ c.toNat ≤ 57 then c.toNat - 48
    else if 97 ≤ c.toNat ∧ c.toNat ≤ 102 then c.toNat - 87
    else if 65 ≤ c.toNat ∧ c.toNat ≤ 70 then c.toNat - 55
    else 16
  if v < base then some v else none

/-- Reads digits, most significant first, after the value `acc`. -/
def readDigits (base acc : Nat) : List Char → Option Nat
  | [] => some acc
  | c :: cs =>
    match digitValue base c with
    | some v => readDigits base (acc * base + v) cs
    | none => none

/-- A number, decimal or `0x` hexadecimal (30_encoding.md R75). -/
def readNumber : List Char → Option Nat
  | [] => none
  | ['0', 'x'] => none
  | '0' :: 'x' :: cs => readDigits 16 0 cs
  | cs => readDigits 10 0 cs

/-- A number in the range of an `n`-bit field; any other is an assembly error (30_encoding.md R75). -/
def readField (n : Nat) (text : List Char) : Option (BitVec n) :=
  match readNumber text with
  | some v => if v < 2 ^ n then some (BitVec.ofNat n v) else none
  | none => none

/-- The `<type>` operand of `push_frame`: one of four names, or a number (30_encoding.md R75). -/
def readType (c : Config) (text : List Char) : Option Byte :=
  if text = "ACK".toList then some c.tAck
  else if text = "NAK".toList then some c.tNak
  else if text = "DSEQ".toList then some c.tDseq
  else if text = "DNSQ".toList then some c.tDnsq
  else readField 8 text

/-- A byte sequence after its opening bracket: two-digit hexadecimal bytes, the closing bracket, and nothing more
(30_encoding.md R75). -/
def readBytes : List Token → Option (List Byte)
  | [.rbracket] => some []
  | .word [a, b] :: rest =>
    match readDigits 16 0 [a, b], readBytes rest with
    | some v, some bytes => some (BitVec.ofNat 8 v :: bytes)
    | _, _ => none
  | _ => none

/-- One `name=value` operand with the comma after it, and the tokens that follow (30_encoding.md R75). -/
def readKeyed (n : Nat) (name : List Char) : List Token → Option (BitVec n × List Token)
  | .word key :: .equals :: .word value :: .comma :: rest =>
    if key = name then (readField n value).map fun v => (v, rest) else none
  | _ => none

/-- The operands of `push_cmd`, in their order (30_encoding.md R75). -/
def readCmd (ts : List Token) : Option Instr := do
  let (seq, ts) ← readKeyed 8 "seq".toList ts
  let (rqid, ts) ← readKeyed 16 "rqid".toList ts
  let (tc, ts) ← readKeyed 8 "tc".toList ts
  let (tid, ts) ← readKeyed 8 "tid".toList ts
  let (iid, ts) ← readKeyed 8 "iid".toList ts
  let (cid, ts) ← readKeyed 8 "cid".toList ts
  match ts with
  | .lbracket :: rest => (readBytes rest).map fun payload => .pushCmd seq rqid tc tid iid cid payload
  | _ => none

/-- The operation a mnemonic and its operands spell (30_encoding.md R75). -/
def readOp (c : Config) (mnemonic : List Char) (ts : List Token) : Option Instr :=
  if mnemonic = "init".toList then
    match ts with
    | [.word storage, .comma, .word capacity] => do
      let storage ← readField 32 storage
      let capacity ← readField 32 capacity
      some (.init storage capacity)
    | _ => none
  else if mnemonic = "bytes_used".toList then if ts = [] then some .bytesUsed else none
  else if mnemonic = "push_u16".toList then
    match ts with
    | [.word value] => (readField 16 value).map .pushU16
    | _ => none
  else if mnemonic = "push_bytes".toList then
    match ts with
    | .lbracket :: rest => (readBytes rest).map .pushBytes
    | _ => none
  else if mnemonic = "push_crc".toList then
    match ts with
    | .lbracket :: rest => (readBytes rest).map .pushCrc
    | _ => none
  else if mnemonic = "push_syn".toList then if ts = [] then some .pushSyn else none
  else if mnemonic = "push_frame".toList then
    match ts with
    | [.word type, .comma, .word length, .comma, .word seq] => do
      let type ← readType c type
      let length ← readField 16 length
      let seq ← readField 8 seq
      some (.pushFrame type length seq)
    | _ => none
  else if mnemonic = "push_ack".toList then
    match ts with
    | [.word seq] => (readField 8 seq).map .pushAck
    | _ => none
  else if mnemonic = "push_nak".toList then if ts = [] then some .pushNak else none
  else if mnemonic = "push_cmd".toList then readCmd ts
  else none

/-- One line of assembly (30_encoding.md R75); a byte sequence longer than MAXLEN is an operand out of range (R62, R70). -/
def assemble (c : Config) (line : String) : AsmLine :=
  match tokens [] line.toList with
  | [] => .empty
  | .word mnemonic :: ts =>
    match readOp c mnemonic ts with
    | some i => if i.wf c.maxLen then .op i else .error
    | none => .error
  | _ => .error

/-- One hexadecimal digit. -/
def hexDigit (v : Nat) : Char := Char.ofNat (if v < 10 then 48 + v else 55 + v)

/-- `k` hexadecimal digits of `v`, most significant first. -/
def hexDigits : Nat → Nat → List Char
  | 0, _ => []
  | k + 1, v => hexDigits k (v / 16) ++ [hexDigit (v % 16)]

/-- A field as a `0x` number of `k` digits. -/
def writeField {n : Nat} (k : Nat) (x : BitVec n) : List Char := '0' :: 'x' :: hexDigits k x.toNat

/-- The bytes of a sequence, each after a blank. -/
def writeTail : List Byte → List Char
  | [] => []
  | b :: bytes => ' ' :: hexDigits 2 b.toNat ++ writeTail bytes

/-- A byte sequence in square brackets. -/
def writeBytes : List Byte → List Char
  | [] => "[]".toList
  | b :: bytes => '[' :: hexDigits 2 b.toNat ++ writeTail bytes ++ [']']

/-- An operation written as a line of assembly (30_encoding.md R75), every number hexadecimal. -/
def writeLine (i : Instr) : List Char :=
  match i with
  | .init storage capacity => "init ".toList ++ writeField 8 storage ++ ", ".toList ++ writeField 8 capacity
  | .bytesUsed => "bytes_used".toList
  | .pushU16 value => "push_u16 ".toList ++ writeField 4 value
  | .pushBytes data => "push_bytes ".toList ++ writeBytes data
  | .pushCrc data => "push_crc ".toList ++ writeBytes data
  | .pushSyn => "push_syn".toList
  | .pushFrame type length seq =>
    "push_frame ".toList ++ writeField 2 type ++ ", ".toList ++ writeField 4 length ++ ", ".toList ++ writeField 2 seq
  | .pushAck seq => "push_ack ".toList ++ writeField 2 seq
  | .pushNak => "push_nak".toList
  | .pushCmd seq rqid tc tid iid cid payload =>
    "push_cmd seq=".toList ++ writeField 2 seq ++ ", rqid=".toList ++ writeField 4 rqid ++
      ", tc=".toList ++ writeField 2 tc ++ ", tid=".toList ++ writeField 2 tid ++ ", iid=".toList ++ writeField 2 iid ++
      ", cid=".toList ++ writeField 2 cid ++ ", ".toList ++ writeBytes payload

end Sys2Proof.Machine
end

