-- ==== Sys2Proof/Safety.lean ====
section
/-! DEFINITION. What claims are stated in: the invariant of the engine, the wire formats as byte tables, the byte counts of
the operations, the state up to its dead hidden part, and when a buffer may be sent. -/

namespace Sys2Proof.Machine

/-- The remaining capacity `r = END - POS` (43_builders.md R128, R134). -/
def State.room (s : State) : Nat := s.endAddr - s.pos

/-- The state without its hidden part, which is dead between operations and read by no later one (10_state.md R25). -/
def State.visible (s : State) : State := { s with scratch := Scratch.reset }

/-- The status of the last response. -/
def State.status (s : State) : Option Status := s.resp.map Response.status

/-- What holds in every state a run reaches: the configuration is one the spec allows, memory is canonical and inside the
address space, the cursor registers keep their widths (10_state.md R14, R17), and under a binding
`BEGIN <= POS <= END` (R15) with a window smaller than the address space (R18). -/
structure State.Inv (s : State) : Prop where
  cfg_wf : s.cfg.wf = true
  mem_wf : Memory.wf s.mem = true
  mem_below : Memory.below s.cfg.addrTop s.mem = true
  begin_lt : s.beginAddr < s.cfg.addrTop
  end_le : s.endAddr ≤ s.cfg.addrTop
  pos_le : s.pos ≤ s.cfg.addrTop
  begin_le_pos : s.bound = true → s.beginAddr ≤ s.pos
  pos_le_end : s.bound = true → s.pos ≤ s.endAddr
  window_lt : s.bound = true → s.endAddr - s.beginAddr < s.cfg.addrTop
  ovf_bound : s.ovf = true → s.bound = true

/-- The buffer may be handed to the transport: bound, and no capacity violation since `INIT` (70_reset_and_hazards.md R177,
R179; 40_cursor.md R85). -/
def State.transmittable (s : State) : Bool := s.bound && !s.ovf

/-- The state after a push that wrote the bytes `out` at `POS` and skipped a write unless `complete`: memory, `POS`, `OVF` and
the response, nothing else (41_primitives.md R100). -/
def State.pushed (out : List Byte) (complete : Bool) (s : State) : State :=
  { s with
    mem := Memory.writeSeq s.mem s.pos out
    pos := s.pos + out.length
    ovf := s.ovf || !complete
    resp := some { status := if complete then .ok else .capacity, value := 0 } }

/-- A checksum as it stands on the wire, low byte first (42_crc16.md R113). -/
def crcBytes (c : Config) (d : List Byte) : List Byte := [lo8 (crc16 c.crc d), hi8 (crc16 c.crc d)]

/-- The six bytes of a frame header and its checksum (30_encoding.md R51). -/
def headerBytes (c : Config) (type : Byte) (length : Half) (seq : Byte) : List Byte :=
  [type, lo8 length, hi8 length, seq] ++ crcBytes c [type, lo8 length, hi8 length, seq]

/-- The ten bytes of a frame without payload: an ACK (30_encoding.md R53), a NAK (R54). -/
def shortFrame (c : Config) (type seq : Byte) : List Byte :=
  [c.syn0, c.syn1, type, 0x00, 0x00, seq] ++ crcBytes c [type, 0x00, 0x00, seq] ++ crcBytes c []

/-- The eight bytes of a command block header (30_encoding.md R55). -/
def blockBytes (c : Config) (rqid : Half) (tc tid iid cid : Byte) : List Byte :=
  [c.pltCmd, tc, tid, 0x00, iid, lo8 rqid, hi8 rqid, cid]

/-- The `18 + n` bytes of a command frame (30_encoding.md R56). -/
def cmdFrame (c : Config) (seq : Byte) (rqid : Half) (tc tid iid cid : Byte) (payload : List Byte) : List Byte :=
  [c.syn0, c.syn1] ++ headerBytes c c.tDseq (BitVec.ofNat 16 (8 + payload.length)) seq ++
    (blockBytes c rqid tc tid iid cid ++ payload) ++ crcBytes c (blockBytes c rqid tc tid iid cid ++ payload)

/-- What `PUSH_ACK` and `PUSH_NAK` append at remaining capacity `r`, row by row (43_builders.md R128): a later, smaller write
can succeed after an earlier, larger one was skipped. -/
def shortFrameAt (c : Config) (type seq : Byte) (r : Nat) : List Byte :=
  if r < 2 then []
  else if r < 4 then (shortFrame c type seq).take 2
  else if r < 6 then (shortFrame c type seq).take 2 ++ crcBytes c []
  else if r < 8 then (shortFrame c type seq).take 6
  else if r < 10 then (shortFrame c type seq).take 8
  else shortFrame c type seq

/-- What `PUSH_CMD` appends at remaining capacity `r`, row by row (43_builders.md R134). -/
def cmdFrameAt (c : Config) (seq : Byte) (rqid : Half) (tc tid iid cid : Byte) (payload : List Byte) (r : Nat) : List Byte :=
  let whole := cmdFrame c seq rqid tc tid iid cid payload
  if r < 2 then []
  else if r < 6 then whole.take 2
  else if r < 8 then whole.take 6
  else if r < 16 then whole.take 8
  else if r < 16 + payload.length then
    if r < 18 then whole.take 16 else whole.take 16 ++ crcBytes c (blockBytes c rqid tc tid iid cid)
  else if r < 18 + payload.length then whole.take (16 + payload.length)
  else whole

/-- Bytes written per operation when no capacity violation occurs (20_memory.md R35). -/
def byteCount : Instr → Nat
  | .init _ _ => 0
  | .bytesUsed => 0
  | .pushU16 _ => 2
  | .pushBytes data => data.length
  | .pushCrc _ => 2
  | .pushSyn => 2
  | .pushFrame _ _ _ => 6
  | .pushAck _ => 10
  | .pushNak => 10
  | .pushCmd _ _ _ _ _ _ payload => 18 + payload.length

/-- The operation is `INIT`, the only one accepted with `BOUND = 0` (40_cursor.md R82). -/
def isInit : Instr → Bool
  | .init _ _ => true
  | .bytesUsed => false
  | .pushU16 _ => false
  | .pushBytes _ => false
  | .pushCrc _ => false
  | .pushSyn => false
  | .pushFrame _ _ _ => false
  | .pushAck _ => false
  | .pushNak => false
  | .pushCmd _ _ _ _ _ _ _ => false

/-- The operation is one of the eight that append bytes. -/
def isPush : Instr → Bool
  | .init _ _ => false
  | .bytesUsed => false
  | .pushU16 _ => true
  | .pushBytes _ => true
  | .pushCrc _ => true
  | .pushSyn => true
  | .pushFrame _ _ _ => true
  | .pushAck _ => true
  | .pushNak => true
  | .pushCmd _ _ _ _ _ _ _ => true

/-- The payload passes the 16-bit `length` field of a command frame (43_builders.md R133). -/
def payloadOutOfRange : Instr → Bool
  | .init _ _ => false
  | .bytesUsed => false
  | .pushU16 _ => false
  | .pushBytes _ => false
  | .pushCrc _ => false
  | .pushSyn => false
  | .pushFrame _ _ _ => false
  | .pushAck _ => false
  | .pushNak => false
  | .pushCmd _ _ _ _ _ _ payload => decide (65535 < 8 + payload.length)

end Sys2Proof.Machine
end

