-- ==== Sys2Proof/Certificates/Slice0/Obligations.lean ====
section
/-! DEFINITION. The statements for the provers. Each docstring cites the rules of spec/ it formalises. Results are stated up to
`State.visible`, which forgets only the hidden state of 10_state.md R25, so an equation `t.visible = u.visible` also says
that every other part of the state is unchanged. -/

open Sys2Proof Sys2Proof.Machine

/-! ## Encoding -/

/-- Decoding what `encode` made gives the instruction back, every operand at every value (30_encoding.md R71). -/
def Obligations.EncodeThenDecode : Prop :=
  ∀ (maxLen : Nat) (i : Instr), maxLen ≤ 65535 → i.wf maxLen = true → decode maxLen (encode i) = .op i

/-- Encoding what the decoder read gives the pair (word, stream) back, so no two pairs decode to one instruction
(30_encoding.md R71). -/
def Obligations.DecodeThenEncode : Prop :=
  ∀ (maxLen : Nat) (c : Command) (i : Instr), decode maxLen c = .op i → encode i = c ∧ i.wf maxLen = true

/-- A command is answered `ILLEGAL` exactly when its opcode is 0x00 or 0x0B .. 0xFF or a reserved bit of its format is set; no
state and no memory is changed, bound or not (30_encoding.md R72, 60_exceptions.md R155; that no legal command is answered so:
R151). The queue left is `rest`: that the stream bytes beside an illegal word leave the queue with it is the model's choice
(log 1), where R155 says the engine does not consume them and leaves them to the host's transport. -/
def Obligations.IllegalWordIsAnswered : Prop :=
  ∀ (s : State) (c : Command) (rest : List HostMove), s.port = .command c :: rest →
    ((opcode c.word = 0x00 ∨ 0x0B ≤ (opcode c.word).toNat ∨
        ∃ fmt k, formatOf (opcode c.word) = some fmt ∧ fmt.reservedFrom ≤ k ∧ k < 96 ∧ c.word.getLsbD k = true) ↔
      step s = .next { s with port := rest, resp := some { status := .illegal, value := 0 } })

/-- The rows of spec/opcode_table.json: a word with a defined opcode is legal iff the word and its format's mask leave
exactly the opcode (95_test_vectors.md 2.5, 30_encoding.md R63 to R69). -/
def Obligations.LegalWordIffMaskLeavesOpcode : Prop :=
  ∀ (w : CmdWord) (fmt : Format),
    legalFormat w = some fmt ↔ formatOf (opcode w) = some fmt ∧ w &&& fmt.mask = (opcode w).setWidth 96

/-- A legal word beside another number of stream bytes than it calls for spells no command and has no step
(30_encoding.md R62). For formats other than D and C, which call for none, this is the model's reading (log 12). -/
def Obligations.StreamMismatchIsNoCommand : Prop :=
  ∀ (s : State) (c : Command) (rest : List HostMove) (fmt : Format), s.port = .command c :: rest →
    legalFormat c.word = some fmt →
    (fmt = .d → c.stream.length ≠ (field c.word 8 16).toNat) →
    (fmt = .c → c.stream.length ≠ (field c.word 64 16).toNat) →
    (fmt ≠ .d → fmt ≠ .c → c.stream ≠ []) →
    step s = .refused .notACommand

/-- Laid end to end a command is its word's 12 bytes, little-endian, byte 0 the opcode, and then the stream bytes its word
calls for; read from the front of any longer byte list it comes back with the rest (30_encoding.md R74, R77). -/
def Obligations.CommandBytesLaidEndToEnd : Prop :=
  ∀ (c : Command) (rest : List Byte), c.stream.length = streamLen c.word →
    c.bytes.length = 12 + streamLen c.word ∧
    (∀ i, i < 12 → c.bytes[i]? = some (field c.word (8 * i) 8)) ∧
    Command.ofBytes (c.bytes ++ rest) = some (c, rest)

/-- Words written out in 95_test_vectors.md 2.5, one of every family and format, decode to the instruction they stand for. -/
def Obligations.SampleWordsDecode : Prop :=
  decode 65535 ⟨0x00000000000010FFFFFFF001, []⟩ = .op (.init 0xFFFFFFF0 16) ∧
  decode 65535 ⟨0x000000000000000000000002, []⟩ = .op .bytesUsed ∧
  decode 65535 ⟨0x000000000000000000123403, []⟩ = .op (.pushU16 0x1234) ∧
  decode 65535 ⟨0x000000000000000000000204, [0xAA, 0xBB]⟩ = .op (.pushBytes [0xAA, 0xBB]) ∧
  decode 65535 ⟨0x0000000000000001000A8007, []⟩ = .op (.pushFrame 0x80 10 1) ∧
  decode 65535 ⟨0x00000000000000000000FF08, []⟩ = .op (.pushAck 255) ∧
  decode 65535 ⟨0x00000002030002010042010A, [0xAA, 0xBB]⟩ = .op (.pushCmd 1 0x0042 1 2 0 3 [0xAA, 0xBB]) ∧
  decode 65535 ⟨0x000000000000000001004203, []⟩ = .illegal ∧
  decode 65535 ⟨0x00010002030002010042010A, [0xAA, 0xBB]⟩ = .illegal

/-- Lines of assembly printed in 95_test_vectors.md 2.5 are read as operations whose words are the ones printed beside them; a
value out of its field's range and a line that is not of the form are assembly errors (30_encoding.md R75). -/
def Obligations.SampleLinesAssemble : Prop :=
  assemble defaultConfig "init 0x1000, 10" = .op (.init 0x1000 10) ∧
  encodeWord (.init 0x1000 10) = 0x0000000000000A0000100001 ∧
  assemble defaultConfig "push_frame ACK, 0, 5 # T_ACK = 0x40" = .op (.pushFrame 0x40 0 5) ∧
  encodeWord (.pushFrame 0x40 0 5) = 0x000000000000000500004007 ∧
  assemble defaultConfig "push_cmd seq=1, rqid=0x0042, tc=0x01, tid=0x02, iid=0x00, cid=0x03, [AA BB]" =
    .op (.pushCmd 1 0x0042 1 2 0 3 [0xAA, 0xBB]) ∧
  encodeWord (.pushCmd 1 0x0042 1 2 0 3 [0xAA, 0xBB]) = 0x00000002030002010042010A ∧
  assemble defaultConfig "push_bytes []" = .op (.pushBytes []) ∧
  assemble defaultConfig "push_ack 256" = .error ∧
  assemble defaultConfig "push_u16 1, 2" = .error

/-! ## Steps, host moves, reset, invariants -/

/-- A step runs the decoded instruction: when the oldest move of the host is a command that decodes to `i`, the step is
`exec i` with the command taken off the queue (00_scope.md R11, 30_encoding.md R60). -/
def Obligations.StepRunsDecodedInstruction : Prop :=
  ∀ (s : State) (c : Command) (rest : List HostMove) (i : Instr), s.port = .command c :: rest →
    decode s.cfg.maxLen c = .op i → step s = exec i { s with port := rest }

/-- The other moves: with nothing queued the engine is idle and keeps all its state (60_exceptions.md R168); reset clears
`BOUND` and `OVF` and leaves `MEM` untouched (70_reset_and_hazards.md R175; the cleared cursor registers, hidden state and
response are the model's choice, log 6, log 7, log 8 and log 14); a host write changes one byte of memory and nothing else
(R187), and one at an address that does not exist is a fault (log 15). -/
def Obligations.HostMovesBetweenCommands : Prop :=
  (∀ s : State, s.port = [] → step s = .next s) ∧
  (∀ (s : State) (rest : List HostMove), s.port = .reset :: rest →
    ∃ t, step s = .next t ∧ t.bound = false ∧ t.ovf = false ∧ t.mem = s.mem ∧ t.cfg = s.cfg ∧ t.port = rest ∧
      t.beginAddr = 0 ∧ t.endAddr = 0 ∧ t.pos = 0 ∧ t.resp = none ∧ t.scratch = Scratch.reset) ∧
  (∀ (s : State) (a : Nat) (b : Byte) (rest : List HostMove), s.port = .write a b :: rest →
    (a < 2 ^ s.cfg.aw → ∃ t, step s = .next t ∧ { t with mem := s.mem } = { s with port := rest } ∧
      ∀ x, Memory.read t.mem x = if x = a then some b else Memory.read s.mem x) ∧
    (2 ^ s.cfg.aw ≤ a → step s = .fault .noSuchAddress))

/-- After reset `BOUND = 0` and `OVF = 0`, and the only command that is not refused is `INIT` (10_state.md R27). That memory
lists nothing is the model's way of saying its contents are the host's (log 13). -/
def Obligations.ResetAcceptsOnlyInit : Prop :=
  State.reset.bound = false ∧ State.reset.ovf = false ∧ State.reset.mem = [] ∧
  ∀ i : Instr,
    (isInit i = false → exec i State.reset = .next { State.reset with resp := some { status := .unbound, value := 0 } }) ∧
    (isInit i = true → ∃ t, exec i State.reset = .next t ∧ t.status ≠ some .unbound)

/-- The invariant holds at reset. -/
def Obligations.ResetMeetsInvariant : Prop := State.reset.Inv

/-- Every step, a host's move included, keeps the invariant: `BEGIN <= POS <= END` under a binding (10_state.md R15), the
registers within their widths (R14, R17), `bytes_used < 2^AW` (R18), memory canonical and inside the address space. -/
def Obligations.StepKeepsInvariant : Prop :=
  ∀ s t : State, s.Inv → step s = .next t → t.Inv

/-- No step changes the configuration: it is no state of the engine (10_state.md R13; log 2). -/
def Obligations.StepKeepsConfiguration : Prop :=
  ∀ s t : State, step s = .next t → t.cfg = s.cfg

/-- `BEGIN` and `END` are written only by `INIT`, `BOUND` is never cleared by a command, and every other operation only adds to
`POS`; an accepted `INIT` sets `POS` to `BEGIN`, a refused one changes none of them (10_state.md R16, R20). -/
def Obligations.OnlyInitMovesTheWindow : Prop :=
  ∀ (i : Instr) (s t : State), exec i s = .next t →
    (isInit i = false →
      t.beginAddr = s.beginAddr ∧ t.endAddr = s.endAddr ∧ t.bound = s.bound ∧ s.pos ≤ t.pos) ∧
    (isInit i = true → t.status = some .ok → t.pos = t.beginAddr ∧ t.bound = true) ∧
    (isInit i = true → t.status ≠ some .ok →
      t.beginAddr = s.beginAddr ∧ t.endAddr = s.endAddr ∧ t.bound = s.bound ∧ t.pos = s.pos)

/-- `OVF` is sticky: set by exactly the commands that end `CAPACITY`, cleared only by an accepted `INIT` (10_state.md R21,
60_exceptions.md R160). -/
def Obligations.OverflowFlagIsSticky : Prop :=
  ∀ (i : Instr) (s t : State), exec i s = .next t →
    (isInit i = false → (t.ovf = true ↔ s.ovf = true ∨ t.status = some .capacity)) ∧
    (isInit i = true → (t.status = some .ok → t.ovf = false) ∧ (t.status ≠ some .ok → t.ovf = s.ovf))

/-- No operation's behaviour depends on `OVF`: pushes after an overflow are performed and checked as before one
(10_state.md R21). -/
def Obligations.OverflowFlagSteersNothing : Prop :=
  ∀ (i : Instr) (s : State) (b : Bool),
    (∀ t, exec i s = .next t → ∃ t', exec i { s with ovf := b } = .next t' ∧
      { t' with ovf := t.ovf }.visible = t.visible) ∧
    (∀ f, exec i s = .fault f → exec i { s with ovf := b } = .fault f)

/-- The hidden state is not observable: no operation reads a value of it left by an earlier one (10_state.md R25). -/
def Obligations.HiddenStateIsNotObservable : Prop :=
  ∀ (i : Instr) (s : State) (k : Scratch),
    (∀ t, exec i s = .next t → ∃ t', exec i { s with scratch := k } = .next t' ∧ t'.visible = t.visible) ∧
    (∀ f, exec i s = .fault f → exec i { s with scratch := k } = .fault f)

/-- The laws of `bytes_used` (40_cursor.md R86): 0 after an accepted `INIT`; never decreasing under one binding; grown by
exactly the byte count of 20_memory.md R35 after `OK`, by less after `CAPACITY`. -/
def Obligations.BytesUsedCountsAppendedBytes : Prop :=
  ∀ (i : Instr) (s t : State), s.Inv → exec i s = .next t →
    (isInit i = true → t.status = some .ok → t.bytesUsed = 0) ∧
    (isInit i = false → s.bytesUsed ≤ t.bytesUsed) ∧
    (isInit i = false → t.status = some .ok → t.bytesUsed = s.bytesUsed + byteCount i) ∧
    (isInit i = false → t.status = some .capacity → t.bytesUsed < s.bytesUsed + byteCount i)

/-- No command changes a byte below `POS` or at or past `END`: bytes outside the window are never changed by any operation
(10_state.md R23, 20_memory.md R40). -/
def Obligations.CommandsWriteOnlyInsideTheWindow : Prop :=
  ∀ (i : Instr) (s t : State) (a : Nat), exec i s = .next t → a < s.pos ∨ s.endAddr ≤ a →
    Memory.read t.mem a = Memory.read s.mem a

/-! ## Frames -/

/-- What the eight pushes leave unchanged: the configuration, `BEGIN`, `END`, `BOUND`, the host's queue, and every byte of memory
outside `[POS before, POS after)`, which is at most the byte count of 20_memory.md R35 long (41_primitives.md R100). -/
def Obligations.PushesLeaveTheRestUnchanged : Prop :=
  ∀ (i : Instr) (s t : State), isPush i = true → exec i s = .next t →
    t.cfg = s.cfg ∧ t.beginAddr = s.beginAddr ∧ t.endAddr = s.endAddr ∧ t.bound = s.bound ∧ t.port = s.port ∧
    s.pos ≤ t.pos ∧ t.pos ≤ s.pos + byteCount i ∧
    ∀ a, a < s.pos ∨ t.pos ≤ a → Memory.read t.mem a = Memory.read s.mem a

/-- `INIT` and `BYTES_USED` store nothing: every byte of memory reads as before, and the configuration and the queue are
unchanged; `BYTES_USED` changes nothing visible but the response (40_cursor.md R81, R84). -/
def Obligations.CursorOperationsStoreNothing : Prop :=
  (∀ (storage capacity : Word) (s t : State), exec (.init storage capacity) s = .next t →
    t.cfg = s.cfg ∧ t.port = s.port ∧ ∀ a, Memory.read t.mem a = Memory.read s.mem a) ∧
  (∀ s t : State, exec .bytesUsed s = .next t →
    t.visible = { s with resp := t.resp }.visible ∧ ∀ a, Memory.read t.mem a = Memory.read s.mem a)

/-- CRCACC changes only where a checksum is computed and BLK only where a builder begins a block: the operations that compute
none leave CRCACC alone, those that begin no block leave BLK alone, and `PUSH_CRC` leaves in CRCACC the remainder of its
data (10_state.md R25, 42_crc16.md R112; between commands the left value is the model's choice, log 7). -/
def Obligations.CrcUnitFrame : Prop :=
  ∀ (i : Instr) (s t : State), exec i s = .next t →
    (match i with
      | .init _ _ | .bytesUsed | .pushU16 _ | .pushBytes _ | .pushSyn =>
        t.scratch.crcAcc = s.scratch.crcAcc ∧ t.scratch.blk = s.scratch.blk
      | .pushCrc data =>
        t.scratch.blk = s.scratch.blk ∧
          t.scratch.crcAcc = if s.bound then crcAccumulate s.cfg.crc data else s.scratch.crcAcc
      | .pushFrame _ _ _ =>
        t.scratch.blk = (if s.bound then s.pos else s.scratch.blk) ∧
          (s.bound = false ∨ s.endAddr < s.pos + 4 → t.scratch.crcAcc = s.scratch.crcAcc)
      | .pushAck _ | .pushNak =>
        (s.bound = true → t.scratch.crcAcc = crcAccumulate s.cfg.crc []) ∧
          (s.bound = false → t.scratch = s.scratch)
      | .pushCmd _ _ _ _ _ _ payload =>
        s.bound = false ∨ 65535 < 8 + payload.length → t.scratch = s.scratch)

/-! ## Results of the operations -/

/-- `INIT` with a window inside the address space binds the cursor: `BEGIN` and `POS` become `storage`, `END` becomes
`storage + capacity`, `BOUND = 1`, `OVF = 0`, response `(OK, 0)`, all else unchanged, whatever state it came from
(40_cursor.md R81, R82). -/
def Obligations.InitBindsTheWindow : Prop :=
  ∀ (s : State) (storage capacity : Word),
    storage.toNat < 2 ^ s.cfg.aw → capacity.toNat < 2 ^ s.cfg.aw → storage.toNat + capacity.toNat ≤ 2 ^ s.cfg.aw →
    ∃ t, exec (.init storage capacity) s = .next t ∧
      t.visible = { s with
        beginAddr := storage.toNat
        endAddr := storage.toNat + capacity.toNat
        pos := storage.toNat
        bound := true
        ovf := false
        resp := some { status := .ok, value := 0 } }.visible

/-- `INIT` with a window past the top of the address space, or with a field bit at or above `AW`, is refused with `RANGE` and
nothing changes, an existing binding included; a window that ends at the last address is accepted (40_cursor.md R83,
30_encoding.md R64). -/
def Obligations.InitPastTheTopIsRefused : Prop :=
  ∀ (s : State) (storage capacity : Word),
    (2 ^ s.cfg.aw < storage.toNat + capacity.toNat ∨ 2 ^ s.cfg.aw ≤ storage.toNat ∨ 2 ^ s.cfg.aw ≤ capacity.toNat →
      exec (.init storage capacity) s = .next { s with resp := some { status := .range, value := 0 } }) ∧
    (storage.toNat + capacity.toNat = 2 ^ s.cfg.aw → 0 < capacity.toNat → 0 < storage.toNat →
      ∃ t, exec (.init storage capacity) s = .next t ∧ t.status = some .ok ∧ t.endAddr = 2 ^ s.cfg.aw)

/-- `BYTES_USED` answers `(OK, POS - BEGIN)`, a number from 0 to the capacity that the 32-bit value holds exactly, and changes no
state, `OVF` set or not; while `BOUND = 0` it is refused (40_cursor.md R84). The invariant is a premise because the value is a
32-bit field. -/
def Obligations.BytesUsedAnswersPosMinusBegin : Prop :=
  ∀ s : State, s.Inv →
    (s.bound = true → ∃ t v, exec .bytesUsed s = .next t ∧ v.toNat = s.pos - s.beginAddr ∧
      v.toNat ≤ s.endAddr - s.beginAddr ∧
      t.visible = { s with resp := some { status := .ok, value := v } }.visible) ∧
    (s.bound = false → exec .bytesUsed s = .next { s with resp := some { status := .unbound, value := 0 } })

/-- With `BOUND = 0` every operation but `INIT` is answered `(UNBOUND, 0)`; no state change, no memory write
(60_exceptions.md R156). -/
def Obligations.UnboundOperationIsRefused : Prop :=
  ∀ (i : Instr) (s : State), isInit i = false → s.bound = false →
    exec i s = .next { s with resp := some { status := .unbound, value := 0 } }

/-- `PUSH_U16` where two bytes fit: `MEM[POS] <- value[7:0]`, `MEM[POS+1] <- value[15:8]`, `POS` advanced by 2, `OVF` untouched,
response `(OK, 0)`, all else unchanged (41_primitives.md R91, R93). -/
def Obligations.PushU16Appends : Prop :=
  ∀ (s : State) (value : Half), s.bound = true → s.pos + 2 ≤ s.endAddr →
    ∃ t, exec (.pushU16 value) s = .next t ∧
      t.visible = (s.pushed [value.extractLsb' 0 8, value.extractLsb' 8 8] true).visible ∧
      Memory.read t.mem s.pos = some (value.extractLsb' 0 8) ∧
      Memory.read t.mem (s.pos + 1) = some (value.extractLsb' 8 8)

/-- `PUSH_U16` where two bytes do not fit: nothing written, not even one remaining byte, `POS` unchanged, `OVF <- 1`, response
`(CAPACITY, 0)`, and the next command is accepted (41_primitives.md R92). -/
def Obligations.PushU16ViolationWritesNothing : Prop :=
  ∀ (s : State) (value : Half), s.bound = true → s.endAddr < s.pos + 2 →
    ∃ t, exec (.pushU16 value) s = .next t ∧
      t.visible = { s with ovf := true, resp := some { status := .capacity, value := 0 } }.visible

/-- `PUSH_BYTES` with the guard (the default): the whole copy where it fits, else nothing written, `POS` unchanged, `OVF <- 1`,
response `(CAPACITY, 0)` (41_primitives.md R95). -/
def Obligations.PushBytesGuarded : Prop :=
  ∀ (s : State) (data : List Byte), s.bound = true → s.cfg.guardPushBytes = true →
    ∃ t, exec (.pushBytes data) s = .next t ∧
      t.visible = (if s.pos + data.length ≤ s.endAddr then s.pushed data true
        else { s with ovf := true, resp := some { status := .capacity, value := 0 } }).visible ∧
      (s.pos + data.length ≤ s.endAddr → ∀ k, k < data.length → Memory.read t.mem (s.pos + k) = data[k]?)

/-- `PUSH_BYTES` without the guard: exactly the guarded success where the data fits, else the fault `WriteOutsideWindow` with no
defined result (41_primitives.md R96). -/
def Obligations.PushBytesUnguarded : Prop :=
  ∀ (s : State) (data : List Byte), s.bound = true → s.cfg.guardPushBytes = false →
    (s.pos + data.length ≤ s.endAddr →
      ∃ t, exec (.pushBytes data) s = .next t ∧ t.visible = (s.pushed data true).visible) ∧
    (s.endAddr < s.pos + data.length → exec (.pushBytes data) s = .fault .writeOutsideWindow)

/-- A zero-length `PUSH_BYTES` always succeeds and changes nothing, even when full and even when `OVF = 1`; exactly filling the
window succeeds (41_primitives.md R97 (a), (b)). -/
def Obligations.PushBytesEmptyAndExactFill : Prop :=
  (∀ s : State, s.bound = true → s.pos ≤ s.endAddr →
    ∃ t, exec (.pushBytes []) s = .next t ∧
      t.visible = { s with resp := some { status := .ok, value := 0 } }.visible) ∧
  (∀ (s : State) (data : List Byte), s.bound = true → s.pos + data.length = s.endAddr →
    ∃ t, exec (.pushBytes data) s = .next t ∧ t.status = some .ok ∧ t.pos = s.endAddr)

/-- Concatenation: when both succeed, two copies have the effect of the joined copy; when the joined copy does not fit, both
ways end with `OVF = 1` (41_primitives.md R97 (c)). -/
def Obligations.PushBytesConcatenates : Prop :=
  ∀ (s : State) (a b : List Byte), s.bound = true → s.cfg.guardPushBytes = true →
    ∃ t t1 t2, exec (.pushBytes (a ++ b)) s = .next t ∧ exec (.pushBytes a) s = .next t1 ∧
      exec (.pushBytes b) t1 = .next t2 ∧
      (t1.status = some .ok → t2.status = some .ok → t.mem = t2.mem ∧ t.pos = t2.pos ∧ t.ovf = t2.ovf) ∧
      (s.endAddr < s.pos + (a ++ b).length → t.ovf = true ∧ t2.ovf = true)

/-- `PUSH_U16 v` has the same effect as `PUSH_BYTES [lo8(v), hi8(v)]` in every state, with the guard (41_primitives.md
R97 (d)). -/
def Obligations.PushU16IsPushBytes : Prop :=
  ∀ (s : State) (v : Half), s.cfg.guardPushBytes = true →
    ∃ t u, exec (.pushU16 v) s = .next t ∧ exec (.pushBytes [lo8 v, hi8 v]) s = .next u ∧ t.visible = u.visible

/-- `PUSH_CRC` appends the two bytes of the CRC-16 of its data, low byte first, and not the data; where two bytes do not fit,
as `PUSH_U16` (41_primitives.md R98, 42_crc16.md R113). -/
def Obligations.PushCrcAppendsTheChecksum : Prop :=
  ∀ (s : State) (data : List Byte), s.bound = true →
    ∃ t, exec (.pushCrc data) s = .next t ∧
      t.visible = (if s.pos + 2 ≤ s.endAddr
        then s.pushed [(crc16 s.cfg.crc data).extractLsb' 0 8, (crc16 s.cfg.crc data).extractLsb' 8 8] true
        else { s with ovf := true, resp := some { status := .capacity, value := 0 } }).visible

/-- `PUSH_CRC d` has the same effect as `PUSH_U16 crc16(d)` in every state (41_primitives.md R99). -/
def Obligations.PushCrcIsPushU16OfTheChecksum : Prop :=
  ∀ (s : State) (d : List Byte),
    ∃ t u, exec (.pushCrc d) s = .next t ∧ exec (.pushU16 (crc16 s.cfg.crc d)) s = .next u ∧ t.visible = u.visible

/-- `PUSH_SYN` appends `SYN0` and `SYN1` as one guarded 2-byte write (43_builders.md R122). -/
def Obligations.PushSynAppendsTheMarker : Prop :=
  ∀ s : State, s.bound = true →
    ∃ t, exec .pushSyn s = .next t ∧
      t.visible = (if s.pos + 2 ≤ s.endAddr then s.pushed [s.cfg.syn0, s.cfg.syn1] true
        else { s with ovf := true, resp := some { status := .capacity, value := 0 } }).visible

/-- `PUSH_SYN` has the same effect as `PUSH_U16 (SYN0 + 256 * SYN1)` in every state (43_builders.md R123). -/
def Obligations.PushSynIsPushU16 : Prop :=
  ∀ s : State,
    ∃ t u, exec .pushSyn s = .next t ∧
      exec (.pushU16 (BitVec.ofNat 16 (s.cfg.syn0.toNat + 256 * s.cfg.syn1.toNat))) s = .next u ∧
      t.visible = u.visible

/-- `PUSH_FRAME`: where six bytes fit, the four header bytes and their checksum; where only four fit, the header alone; else
nothing, the checksum skipped with the header (43_builders.md R124, R125, 30_encoding.md R51). -/
def Obligations.PushFrameAppendsHeaderAndChecksum : Prop :=
  ∀ (s : State) (type : Byte) (length : Half) (seq : Byte), s.bound = true →
    ∃ t, exec (.pushFrame type length seq) s = .next t ∧
      t.visible =
        (if s.pos + 6 ≤ s.endAddr then s.pushed (headerBytes s.cfg type length seq) true
          else if s.pos + 4 ≤ s.endAddr then s.pushed [type, lo8 length, hi8 length, seq] false
          else { s with ovf := true, resp := some { status := .capacity, value := 0 } }).visible

/-- `PUSH_ACK` at every remaining capacity: the rows of 43_builders.md R128; ten bytes and `OK` exactly from capacity 10
(R127, 30_encoding.md R53). -/
def Obligations.PushAckAtEveryCapacity : Prop :=
  ∀ (s : State) (seq : Byte), s.bound = true →
    ∃ t, exec (.pushAck seq) s = .next t ∧
      t.visible = (s.pushed (shortFrameAt s.cfg s.cfg.tAck seq s.room) (decide (10 ≤ s.room))).visible

/-- `PUSH_NAK` at every remaining capacity: the same rows with the NAK header, sequence 0 (43_builders.md R129,
30_encoding.md R54). -/
def Obligations.PushNakAtEveryCapacity : Prop :=
  ∀ s : State, s.bound = true →
    ∃ t, exec .pushNak s = .next t ∧
      t.visible = (s.pushed (shortFrameAt s.cfg s.cfg.tNak 0 s.room) (decide (10 ≤ s.room))).visible

/-- `PUSH_CMD` at every remaining capacity: the rows of 43_builders.md R134; `18 + n` bytes and `OK` exactly where they all
fit (R130, R132, 30_encoding.md R56). It holds for engines with `GUARD_PUSH_BYTES = false` too: that the payload copy is guarded
there, so that the rows with a skipped payload apply, is the model's reading of R130 (log 18). -/
def Obligations.PushCmdAtEveryCapacity : Prop :=
  ∀ (s : State) (seq : Byte) (rqid : Half) (tc tid iid cid : Byte) (payload : List Byte), s.bound = true →
    payload.length ≤ 65527 →
    ∃ t, exec (.pushCmd seq rqid tc tid iid cid payload) s = .next t ∧
      t.visible =
        (s.pushed (cmdFrameAt s.cfg seq rqid tc tid iid cid payload s.room)
          (decide (18 + payload.length ≤ s.room))).visible

/-- `PUSH_CMD` whose `8 + n` does not fit the 16-bit `length` field is refused with `RANGE` before anything is written, and no
state changes; every shorter payload has its exact sum in the field (43_builders.md R133) and is answered with another status
(40_cursor.md R80). That such a payload is answered by a next state where `GUARD_PUSH_BYTES = false` too is the model's reading
of the payload copy (log 18). -/
def Obligations.PushCmdTooLongIsRefused : Prop :=
  ∀ (s : State) (seq : Byte) (rqid : Half) (tc tid iid cid : Byte) (payload : List Byte), s.bound = true →
    (65528 ≤ payload.length →
      exec (.pushCmd seq rqid tc tid iid cid payload) s = .next { s with resp := some { status := .range, value := 0 } }) ∧
    (payload.length ≤ 65527 →
      (cmdLength payload).toNat = 8 + payload.length ∧
      ∃ t, exec (.pushCmd seq rqid tc tid iid cid payload) s = .next t ∧ t.status ≠ some .range)

/-- A push ends `OK` exactly when its whole output fits, else `CAPACITY` (60_exceptions.md R152): the status depends on operand
lengths and the remaining capacity only, never on operand values (43_builders.md R138). -/
def Obligations.StatusOkIffTheOutputFits : Prop :=
  ∀ (i : Instr) (s : State), isPush i = true → payloadOutOfRange i = false → s.bound = true → s.pos ≤ s.endAddr →
    s.cfg.guardPushBytes = true →
    ∃ t, exec i s = .next t ∧
      t.status = some (if s.pos + byteCount i ≤ s.endAddr then Status.ok else Status.capacity)

/-- Determinism: what a push appends and answers is a function of its operands, the configuration and `END - POS`; the same
bytes at every `POS`, only their addresses shift (43_builders.md R136). `OVF` after is the same where `OVF` before was: it is
sticky, so an earlier command's overflow stays (10_state.md R21). -/
def Obligations.OutputDependsOnRoomAlone : Prop :=
  ∀ (i : Instr) (s u t : State), isPush i = true → s.cfg = u.cfg → s.bound = true → u.bound = true →
    s.pos ≤ s.endAddr → u.pos ≤ u.endAddr → s.endAddr - s.pos = u.endAddr - u.pos → exec i s = .next t →
    ∃ v out, exec i u = .next v ∧
      t.mem = Memory.writeSeq s.mem s.pos out ∧ v.mem = Memory.writeSeq u.mem u.pos out ∧
      t.pos = s.pos + out.length ∧ v.pos = u.pos + out.length ∧ t.resp = v.resp ∧ (s.ovf = u.ovf → t.ovf = v.ovf)

/-! ## Expansion laws and frames in memory -/

/-- `PUSH_ACK q` has the effect of `PUSH_SYN; PUSH_FRAME ACK, 0, q; PUSH_CRC []`, and `PUSH_NAK` that of
`PUSH_SYN; PUSH_FRAME NAK, 0, 0; PUSH_CRC []`, in every bound state including the overflowing ones, and is `CAPACITY` exactly
when one of the three is (43_builders.md R135 (a), (b); 30_encoding.md R76). -/
def Obligations.AckAndNakExpand : Prop :=
  ∀ (s : State) (q : Byte), s.bound = true →
    (∃ t t1 t2 t3, exec (.pushAck q) s = .next t ∧ exec .pushSyn s = .next t1 ∧
      exec (.pushFrame s.cfg.tAck 0 q) t1 = .next t2 ∧ exec (.pushCrc []) t2 = .next t3 ∧
      t.mem = t3.mem ∧ t.pos = t3.pos ∧ t.ovf = t3.ovf ∧
      (t.status = some .capacity ↔
        t1.status = some .capacity ∨ t2.status = some .capacity ∨ t3.status = some .capacity)) ∧
    (∃ t t1 t2 t3, exec .pushNak s = .next t ∧ exec .pushSyn s = .next t1 ∧
      exec (.pushFrame s.cfg.tNak 0 0) t1 = .next t2 ∧ exec (.pushCrc []) t2 = .next t3 ∧
      t.mem = t3.mem ∧ t.pos = t3.pos ∧ t.ovf = t3.ovf ∧
      (t.status = some .capacity ↔
        t1.status = some .capacity ∨ t2.status = some .capacity ∨ t3.status = some .capacity))

/-- `PUSH_FRAME t, l, q` has the effect of `PUSH_BYTES` of its header and then `PUSH_CRC` of it, where the header fits
(43_builders.md R135 (c)). -/
def Obligations.FrameExpandsWhereTheHeaderFits : Prop :=
  ∀ (s : State) (type : Byte) (length : Half) (seq : Byte), s.bound = true → s.pos + 4 ≤ s.endAddr →
    ∃ t t1 t2, exec (.pushFrame type length seq) s = .next t ∧
      exec (.pushBytes [type, lo8 length, hi8 length, seq]) s = .next t1 ∧
      exec (.pushCrc [type, lo8 length, hi8 length, seq]) t1 = .next t2 ∧
      t.mem = t2.mem ∧ t.pos = t2.pos ∧ t.ovf = t2.ovf ∧
      (t.status = some .capacity ↔ t1.status = some .capacity ∨ t2.status = some .capacity)

/-- `PUSH_CMD` has the effect of `PUSH_SYN; PUSH_FRAME DSEQ, 8+n, q; PUSH_BYTES C; PUSH_BYTES p; PUSH_CRC (C ++ p)` where the
whole frame fits (43_builders.md R135 (d)). -/
def Obligations.CmdExpandsWhereTheFrameFits : Prop :=
  ∀ (s : State) (seq : Byte) (rqid : Half) (tc tid iid cid : Byte) (payload : List Byte), s.bound = true →
    payload.length ≤ 65527 → s.pos + (18 + payload.length) ≤ s.endAddr →
    ∃ t t1 t2 t3 t4 t5, exec (.pushCmd seq rqid tc tid iid cid payload) s = .next t ∧
      exec .pushSyn s = .next t1 ∧
      exec (.pushFrame s.cfg.tDseq (BitVec.ofNat 16 (8 + payload.length)) seq) t1 = .next t2 ∧
      exec (.pushBytes (blockBytes s.cfg rqid tc tid iid cid)) t2 = .next t3 ∧
      exec (.pushBytes payload) t3 = .next t4 ∧
      exec (.pushCrc (blockBytes s.cfg rqid tc tid iid cid ++ payload)) t4 = .next t5 ∧
      t.visible = t5.visible ∧ t.status = some .ok

/-- The use the engine is built for: `INIT` over storage of at least `18 + n` bytes, then `PUSH_CMD`, leaves the command frame
of 30_encoding.md R56 at `storage`, a buffer that may be sent, and `BYTES_USED` answers `18 + n`
(70_reset_and_hazards.md R177, R178; 40_cursor.md R85). -/
def Obligations.InitThenCmdLeavesTheFrame : Prop :=
  ∀ (s : State) (storage capacity : Word) (seq : Byte) (rqid : Half) (tc tid iid cid : Byte) (payload : List Byte),
    storage.toNat < 2 ^ s.cfg.aw → capacity.toNat < 2 ^ s.cfg.aw → storage.toNat + capacity.toNat ≤ 2 ^ s.cfg.aw →
    payload.length ≤ 65527 → 18 + payload.length ≤ capacity.toNat →
    ∃ t u v, exec (.init storage capacity) s = .next t ∧
      exec (.pushCmd seq rqid tc tid iid cid payload) t = .next u ∧ exec .bytesUsed u = .next v ∧
      u.transmittable = true ∧
      v.resp = some { status := .ok, value := BitVec.ofNat 32 (18 + payload.length) } ∧
      (cmdFrame s.cfg seq rqid tc tid iid cid payload).length = 18 + payload.length ∧
      (∀ k, k < 18 + payload.length →
        Memory.read v.mem (storage.toNat + k) = (cmdFrame s.cfg seq rqid tc tid iid cid payload)[k]?) ∧
      (∀ a, a < storage.toNat ∨ storage.toNat + (18 + payload.length) ≤ a → Memory.read v.mem a = Memory.read s.mem a)

/-- After a successful `PUSH_CMD` every operand stands at its offset (43_builders.md R137 (d), 30_encoding.md R56, R57, R58),
and each of the two checksums covers exactly its block (R52): a decoder recovers them all. -/
def Obligations.CmdFieldsStandAtTheirOffsets : Prop :=
  ∀ (s t : State) (seq : Byte) (rqid : Half) (tc tid iid cid : Byte) (payload : List Byte), s.bound = true →
    payload.length ≤ 65527 → s.pos + (18 + payload.length) ≤ s.endAddr →
    exec (.pushCmd seq rqid tc tid iid cid payload) s = .next t →
    Memory.read t.mem (s.pos + 2) = some s.cfg.tDseq ∧
    (∃ l h, Memory.read t.mem (s.pos + 3) = some l ∧ Memory.read t.mem (s.pos + 4) = some h ∧
      l.toNat + 256 * h.toNat = 8 + payload.length) ∧
    Memory.read t.mem (s.pos + 5) = some seq ∧
    (∃ hdr, (∀ k, k < 4 → Memory.read t.mem (s.pos + 2 + k) = hdr[k]?) ∧ hdr.length = 4 ∧
      Memory.read t.mem (s.pos + 6) = some (lo8 (crc16 s.cfg.crc hdr)) ∧
      Memory.read t.mem (s.pos + 7) = some (hi8 (crc16 s.cfg.crc hdr))) ∧
    Memory.read t.mem (s.pos + 8) = some s.cfg.pltCmd ∧
    Memory.read t.mem (s.pos + 9) = some tc ∧ Memory.read t.mem (s.pos + 10) = some tid ∧
    Memory.read t.mem (s.pos + 11) = some 0x00 ∧ Memory.read t.mem (s.pos + 12) = some iid ∧
    Memory.read t.mem (s.pos + 13) = some (lo8 rqid) ∧ Memory.read t.mem (s.pos + 14) = some (hi8 rqid) ∧
    Memory.read t.mem (s.pos + 15) = some cid ∧
    (∀ k, k < payload.length → Memory.read t.mem (s.pos + 16 + k) = payload[k]?) ∧
    (∃ blk, (∀ k, k < 8 + payload.length → Memory.read t.mem (s.pos + 8 + k) = blk[k]?) ∧
      blk.length = 8 + payload.length ∧
      Memory.read t.mem (s.pos + 16 + payload.length) = some (lo8 (crc16 s.cfg.crc blk)) ∧
      Memory.read t.mem (s.pos + 17 + payload.length) = some (hi8 (crc16 s.cfg.crc blk)))

/-- ACK against NAK with room for both: the ten bytes agree at offsets 0, 1, 3, 4, 8 and 9, differ at offset 2, differ at
offset 5 iff the sequence is not 0, and each header checksum is that of its own header (43_builders.md R137 (a),
90_conflicts.md C2). -/
def Obligations.AckAgainstNak : Prop :=
  ∀ (s t u : State) (q : Byte), s.cfg.wf = true → s.bound = true → s.pos + 10 ≤ s.endAddr →
    exec (.pushAck q) s = .next t → exec .pushNak s = .next u →
    (∀ k, k ∈ [0, 1, 3, 4, 8, 9] → Memory.read t.mem (s.pos + k) = Memory.read u.mem (s.pos + k)) ∧
    Memory.read t.mem (s.pos + 2) ≠ Memory.read u.mem (s.pos + 2) ∧
    (Memory.read t.mem (s.pos + 5) ≠ Memory.read u.mem (s.pos + 5) ↔ q ≠ 0) ∧
    Memory.read t.mem (s.pos + 6) = some (lo8 (crc16 s.cfg.crc [s.cfg.tAck, 0, 0, q])) ∧
    Memory.read t.mem (s.pos + 7) = some (hi8 (crc16 s.cfg.crc [s.cfg.tAck, 0, 0, q])) ∧
    Memory.read u.mem (s.pos + 6) = some (lo8 (crc16 s.cfg.crc [s.cfg.tNak, 0, 0, 0])) ∧
    Memory.read u.mem (s.pos + 7) = some (hi8 (crc16 s.cfg.crc [s.cfg.tNak, 0, 0, 0]))

/-! ## The CRC-16 function. The default instantiation is the spec's, marked there as general knowledge (log 4). -/

/-- The byte-table form of one step equals the bit-serial form, with the spot values the spec prints (42_crc16.md R109). -/
def Obligations.CrcTableFormAgrees : Prop :=
  (∀ (poly c : Half) (b : Byte), crcStepTable poly c b = crcStep poly c b) ∧
  (List.range 16).map (fun i => crcTable 0x1021 (BitVec.ofNat 8 i)) =
    [0x0000, 0x1021, 0x2042, 0x3063, 0x4084, 0x50A5, 0x60C6, 0x70E7,
     0x8108, 0x9129, 0xA14A, 0xB16B, 0xC18C, 0xD1AD, 0xE1CE, 0xF1EF] ∧
  crcTable 0x1021 0x80 = 0x9188 ∧ crcTable 0x1021 0xFF = 0x1EF0

/-- Residue: the default CRC of a sequence followed by its own CRC, high byte first, is zero (42_crc16.md R111 (b)). -/
def Obligations.CrcResidueIsZero : Prop :=
  ∀ d : List Byte,
    crc16 (.family ccittFalse) (d ++ [hi8 (crc16 (.family ccittFalse) d), lo8 (crc16 (.family ccittFalse) d)]) = 0

/-- The default CRC is affine: for sequences of one length, the CRC of their exclusive-or is the exclusive-or of their CRCs and
that of as many zero bytes (42_crc16.md R111 (c)). -/
def Obligations.CrcIsAffine : Prop :=
  ∀ a b : List Byte, a.length = b.length →
    crc16 (.family ccittFalse) (List.zipWith (· ^^^ ·) a b) =
      crc16 (.family ccittFalse) a ^^^ crc16 (.family ccittFalse) b ^^^
        crc16 (.family ccittFalse) (List.replicate a.length 0)

/-- Burst errors: two different sequences of one length that differ only inside one span of 16 consecutive bits, numbered most
significant bit of each byte first, have different default CRCs (42_crc16.md R111 (d)). -/
def Obligations.CrcDetectsBursts : Prop :=
  ∀ (a b : List Byte) (p : Nat), a.length = b.length → a ≠ b →
    (∀ j, (a.getD (j / 8) 0).getMsbD (j % 8) ≠ (b.getD (j / 8) 0).getMsbD (j % 8) → p ≤ j ∧ j < p + 16) →
    crc16 (.family ccittFalse) a ≠ crc16 (.family ccittFalse) b

/-- Values of the default CRC that the spec prints (42_crc16.md R107, R110, R111 (a)). -/
def Obligations.CrcDefaultValues : Prop :=
  crc16 (.family ccittFalse) [] = 0xFFFF ∧
  crc16 (.family ccittFalse) [0x31, 0x32, 0x33, 0x34, 0x35, 0x36, 0x37, 0x38, 0x39] = 0x29B1 ∧
  crc16 (.family ccittFalse) [0x40, 0x00, 0x00, 0x05] = 0xBAF9 ∧
  crc16 (.family ccittFalse) [0x80, 0x01, 0x02, 0x00, 0x00, 0x42, 0x00, 0x03, 0xAA, 0xBB] = 0x8936

/-- Every member of the family takes the bytes in order, one step per byte from the initial value, and the CRC of nothing is the
initial value, reversed where REFOUT is set, XORed with XOROUT (42_crc16.md R112, R114). -/
def Obligations.CrcFamilyTakesBytesInOrder : Prop :=
  ∀ p : CrcParams,
    crc16 (.family p) [] = (if p.refout then p.init.reverse else p.init) ^^^ p.xorout ∧
    ∀ (d : List Byte) (b : Byte),
      crcAccumulate (.family p) (d ++ [b]) =
        crcStep p.poly (crcAccumulate (.family p) d) (if p.refin then b.reverse else b)

/-! ## Responses -/

/-- A packed response carries its status code in `Q[7:0]` and its value in `Q[39:8]`; the five codes are 0x00 to 0x04
(30_encoding.md R78, 60_exceptions.md R151). -/
def Obligations.ResponseWordLayout : Prop :=
  (∀ r : Response, r.pack.extractLsb' 0 8 = r.status.code ∧ r.pack.extractLsb' 8 32 = r.value) ∧
  Status.ok.code = 0x00 ∧ Status.capacity.code = 0x01 ∧ Status.unbound.code = 0x02 ∧
  Status.illegal.code = 0x03 ∧ Status.range.code = 0x04

/-- Every accepted command, legal or not, is answered in one step and leaves the engine ready for the next: nothing hangs, and
with the guard nothing faults (60_exceptions.md R161, 30_encoding.md R78, 70_reset_and_hazards.md R186). The queue left is
`rest`: the queue itself, and that the stream bytes beside an illegal word leave it with the word, are the model's choice
(log 1). -/
def Obligations.EveryCommandIsAnswered : Prop :=
  ∀ (s : State) (c : Command) (rest : List HostMove), s.port = .command c :: rest →
    decode s.cfg.maxLen c ≠ .noCommand → s.cfg.guardPushBytes = true →
    ∃ t r, step s = .next t ∧ t.port = rest ∧ t.resp = some r ∧ (r.status ≠ .ok → r.value = 0)
end

