-- ==== Sys2Proof/Laws/State.lean ====
section
/-! SUPPORT. What each update of the state does to each field, one lemma per field per update. -/

namespace Sys2Proof.Machine

@[simp] theorem State.start_cfg (s : State) : s.start.cfg = s.cfg := rfl
@[simp] theorem State.start_beginAddr (s : State) : s.start.beginAddr = s.beginAddr := rfl
@[simp] theorem State.start_endAddr (s : State) : s.start.endAddr = s.endAddr := rfl
@[simp] theorem State.start_pos (s : State) : s.start.pos = s.pos := rfl
@[simp] theorem State.start_bound (s : State) : s.start.bound = s.bound := rfl
@[simp] theorem State.start_ovf (s : State) : s.start.ovf = s.ovf := rfl
@[simp] theorem State.start_mem (s : State) : s.start.mem = s.mem := rfl
@[simp] theorem State.start_port (s : State) : s.start.port = s.port := rfl
@[simp] theorem State.start_resp (s : State) : s.start.resp = s.resp := rfl
@[simp] theorem State.start_crcAcc (s : State) : s.start.scratch.crcAcc = s.scratch.crcAcc := rfl
@[simp] theorem State.start_blk (s : State) : s.start.scratch.blk = s.scratch.blk := rfl
@[simp] theorem State.start_pending (s : State) : s.start.scratch.pending = .ok := rfl
@[simp] theorem State.start_written (s : State) : s.start.scratch.written = [] := rfl

@[simp] theorem State.flagCapacity_cfg (s : State) : s.flagCapacity.cfg = s.cfg := rfl
@[simp] theorem State.flagCapacity_beginAddr (s : State) : s.flagCapacity.beginAddr = s.beginAddr := rfl
@[simp] theorem State.flagCapacity_endAddr (s : State) : s.flagCapacity.endAddr = s.endAddr := rfl
@[simp] theorem State.flagCapacity_pos (s : State) : s.flagCapacity.pos = s.pos := rfl
@[simp] theorem State.flagCapacity_bound (s : State) : s.flagCapacity.bound = s.bound := rfl
@[simp] theorem State.flagCapacity_ovf (s : State) : s.flagCapacity.ovf = true := rfl
@[simp] theorem State.flagCapacity_mem (s : State) : s.flagCapacity.mem = s.mem := rfl
@[simp] theorem State.flagCapacity_port (s : State) : s.flagCapacity.port = s.port := rfl
@[simp] theorem State.flagCapacity_resp (s : State) : s.flagCapacity.resp = s.resp := rfl
@[simp] theorem State.flagCapacity_crcAcc (s : State) : s.flagCapacity.scratch.crcAcc = s.scratch.crcAcc := rfl
@[simp] theorem State.flagCapacity_blk (s : State) : s.flagCapacity.scratch.blk = s.scratch.blk := rfl
@[simp] theorem State.flagCapacity_pending (s : State) : s.flagCapacity.scratch.pending = .capacity := rfl
@[simp] theorem State.flagCapacity_written (s : State) : s.flagCapacity.scratch.written = s.scratch.written := rfl

@[simp] theorem State.raiseCapacity_cfg (s : State) : s.raiseCapacity.cfg = s.cfg := rfl
@[simp] theorem State.raiseCapacity_beginAddr (s : State) : s.raiseCapacity.beginAddr = s.beginAddr := rfl
@[simp] theorem State.raiseCapacity_endAddr (s : State) : s.raiseCapacity.endAddr = s.endAddr := rfl
@[simp] theorem State.raiseCapacity_pos (s : State) : s.raiseCapacity.pos = s.pos := rfl
@[simp] theorem State.raiseCapacity_bound (s : State) : s.raiseCapacity.bound = s.bound := rfl
@[simp] theorem State.raiseCapacity_ovf (s : State) : s.raiseCapacity.ovf = true := rfl
@[simp] theorem State.raiseCapacity_mem (s : State) : s.raiseCapacity.mem = s.mem := rfl
@[simp] theorem State.raiseCapacity_port (s : State) : s.raiseCapacity.port = s.port := rfl
@[simp] theorem State.raiseCapacity_resp (s : State) : s.raiseCapacity.resp = s.resp := rfl
@[simp] theorem State.raiseCapacity_crcAcc (s : State) : s.raiseCapacity.scratch.crcAcc = s.scratch.crcAcc := rfl
@[simp] theorem State.raiseCapacity_blk (s : State) : s.raiseCapacity.scratch.blk = s.scratch.blk := rfl
@[simp] theorem State.raiseCapacity_pending (s : State) : s.raiseCapacity.scratch.pending = .capacity := rfl
@[simp] theorem State.raiseCapacity_written (s : State) : s.raiseCapacity.scratch.written = s.scratch.written := rfl

@[simp] theorem State.bindWindow_cfg (a n : Nat) (s : State) : (s.bindWindow a n).cfg = s.cfg := rfl
@[simp] theorem State.bindWindow_beginAddr (a n : Nat) (s : State) : (s.bindWindow a n).beginAddr = a := rfl
@[simp] theorem State.bindWindow_endAddr (a n : Nat) (s : State) : (s.bindWindow a n).endAddr = a + n := rfl
@[simp] theorem State.bindWindow_pos (a n : Nat) (s : State) : (s.bindWindow a n).pos = a := rfl
@[simp] theorem State.bindWindow_bound (a n : Nat) (s : State) : (s.bindWindow a n).bound = true := rfl
@[simp] theorem State.bindWindow_ovf (a n : Nat) (s : State) : (s.bindWindow a n).ovf = false := rfl
@[simp] theorem State.bindWindow_mem (a n : Nat) (s : State) : (s.bindWindow a n).mem = s.mem := rfl
@[simp] theorem State.bindWindow_port (a n : Nat) (s : State) : (s.bindWindow a n).port = s.port := rfl
@[simp] theorem State.bindWindow_resp (a n : Nat) (s : State) : (s.bindWindow a n).resp = s.resp := rfl
@[simp] theorem State.bindWindow_crcAcc (a n : Nat) (s : State) : (s.bindWindow a n).scratch.crcAcc = s.scratch.crcAcc := rfl
@[simp] theorem State.bindWindow_blk (a n : Nat) (s : State) : (s.bindWindow a n).scratch.blk = s.scratch.blk := rfl
@[simp] theorem State.bindWindow_pending (a n : Nat) (s : State) : (s.bindWindow a n).scratch.pending = s.scratch.pending := rfl
@[simp] theorem State.bindWindow_written (a n : Nat) (s : State) : (s.bindWindow a n).scratch.written = s.scratch.written := rfl

@[simp] theorem State.append_cfg (d : List Byte) (s : State) : (s.append d).cfg = s.cfg := rfl
@[simp] theorem State.append_beginAddr (d : List Byte) (s : State) : (s.append d).beginAddr = s.beginAddr := rfl
@[simp] theorem State.append_endAddr (d : List Byte) (s : State) : (s.append d).endAddr = s.endAddr := rfl
@[simp] theorem State.append_pos (d : List Byte) (s : State) : (s.append d).pos = s.pos + d.length := rfl
@[simp] theorem State.append_bound (d : List Byte) (s : State) : (s.append d).bound = s.bound := rfl
@[simp] theorem State.append_ovf (d : List Byte) (s : State) : (s.append d).ovf = s.ovf := rfl
@[simp] theorem State.append_mem (d : List Byte) (s : State) : (s.append d).mem = Memory.writeSeq s.mem s.pos d := rfl
@[simp] theorem State.append_port (d : List Byte) (s : State) : (s.append d).port = s.port := rfl
@[simp] theorem State.append_resp (d : List Byte) (s : State) : (s.append d).resp = s.resp := rfl
@[simp] theorem State.append_crcAcc (d : List Byte) (s : State) : (s.append d).scratch.crcAcc = s.scratch.crcAcc := rfl
@[simp] theorem State.append_blk (d : List Byte) (s : State) : (s.append d).scratch.blk = s.scratch.blk := rfl
@[simp] theorem State.append_pending (d : List Byte) (s : State) : (s.append d).scratch.pending = s.scratch.pending := rfl
@[simp] theorem State.append_written (d : List Byte) (s : State) : (s.append d).scratch.written = s.scratch.written ++ d := rfl

@[simp] theorem State.latchBlock_cfg (s : State) : s.latchBlock.cfg = s.cfg := rfl
@[simp] theorem State.latchBlock_beginAddr (s : State) : s.latchBlock.beginAddr = s.beginAddr := rfl
@[simp] theorem State.latchBlock_endAddr (s : State) : s.latchBlock.endAddr = s.endAddr := rfl
@[simp] theorem State.latchBlock_pos (s : State) : s.latchBlock.pos = s.pos := rfl
@[simp] theorem State.latchBlock_bound (s : State) : s.latchBlock.bound = s.bound := rfl
@[simp] theorem State.latchBlock_ovf (s : State) : s.latchBlock.ovf = s.ovf := rfl
@[simp] theorem State.latchBlock_mem (s : State) : s.latchBlock.mem = s.mem := rfl
@[simp] theorem State.latchBlock_port (s : State) : s.latchBlock.port = s.port := rfl
@[simp] theorem State.latchBlock_resp (s : State) : s.latchBlock.resp = s.resp := rfl
@[simp] theorem State.latchBlock_crcAcc (s : State) : s.latchBlock.scratch.crcAcc = s.scratch.crcAcc := rfl
@[simp] theorem State.latchBlock_blk (s : State) : s.latchBlock.scratch.blk = s.pos := rfl
@[simp] theorem State.latchBlock_pending (s : State) : s.latchBlock.scratch.pending = s.scratch.pending := rfl
@[simp] theorem State.latchBlock_written (s : State) : s.latchBlock.scratch.written = [] := rfl

@[simp] theorem State.runCrc_cfg (d : List Byte) (s : State) : (s.runCrc d).cfg = s.cfg := rfl
@[simp] theorem State.runCrc_beginAddr (d : List Byte) (s : State) : (s.runCrc d).beginAddr = s.beginAddr := rfl
@[simp] theorem State.runCrc_endAddr (d : List Byte) (s : State) : (s.runCrc d).endAddr = s.endAddr := rfl
@[simp] theorem State.runCrc_pos (d : List Byte) (s : State) : (s.runCrc d).pos = s.pos := rfl
@[simp] theorem State.runCrc_bound (d : List Byte) (s : State) : (s.runCrc d).bound = s.bound := rfl
@[simp] theorem State.runCrc_ovf (d : List Byte) (s : State) : (s.runCrc d).ovf = s.ovf := rfl
@[simp] theorem State.runCrc_mem (d : List Byte) (s : State) : (s.runCrc d).mem = s.mem := rfl
@[simp] theorem State.runCrc_port (d : List Byte) (s : State) : (s.runCrc d).port = s.port := rfl
@[simp] theorem State.runCrc_resp (d : List Byte) (s : State) : (s.runCrc d).resp = s.resp := rfl
@[simp] theorem State.runCrc_crcAcc (d : List Byte) (s : State) : (s.runCrc d).scratch.crcAcc = crcAccumulate s.cfg.crc d := rfl
@[simp] theorem State.runCrc_blk (d : List Byte) (s : State) : (s.runCrc d).scratch.blk = s.scratch.blk := rfl
@[simp] theorem State.runCrc_pending (d : List Byte) (s : State) : (s.runCrc d).scratch.pending = s.scratch.pending := rfl
@[simp] theorem State.runCrc_written (d : List Byte) (s : State) : (s.runCrc d).scratch.written = s.scratch.written := rfl

@[simp] theorem State.respond_cfg (st : Status) (v : Word) (s : State) : (s.respond st v).cfg = s.cfg := rfl
@[simp] theorem State.respond_beginAddr (st : Status) (v : Word) (s : State) : (s.respond st v).beginAddr = s.beginAddr := rfl
@[simp] theorem State.respond_endAddr (st : Status) (v : Word) (s : State) : (s.respond st v).endAddr = s.endAddr := rfl
@[simp] theorem State.respond_pos (st : Status) (v : Word) (s : State) : (s.respond st v).pos = s.pos := rfl
@[simp] theorem State.respond_bound (st : Status) (v : Word) (s : State) : (s.respond st v).bound = s.bound := rfl
@[simp] theorem State.respond_ovf (st : Status) (v : Word) (s : State) : (s.respond st v).ovf = s.ovf := rfl
@[simp] theorem State.respond_mem (st : Status) (v : Word) (s : State) : (s.respond st v).mem = s.mem := rfl
@[simp] theorem State.respond_port (st : Status) (v : Word) (s : State) : (s.respond st v).port = s.port := rfl
@[simp] theorem State.respond_resp (st : Status) (v : Word) (s : State) : (s.respond st v).resp = some { status := st, value := v } := rfl
@[simp] theorem State.respond_crcAcc (st : Status) (v : Word) (s : State) : (s.respond st v).scratch.crcAcc = s.scratch.crcAcc := rfl
@[simp] theorem State.respond_blk (st : Status) (v : Word) (s : State) : (s.respond st v).scratch.blk = s.scratch.blk := rfl
@[simp] theorem State.respond_pending (st : Status) (v : Word) (s : State) : (s.respond st v).scratch.pending = s.scratch.pending := rfl
@[simp] theorem State.respond_written (st : Status) (v : Word) (s : State) : (s.respond st v).scratch.written = s.scratch.written := rfl

@[simp] theorem State.finish_cfg (s : State) : s.finish.cfg = s.cfg := rfl
@[simp] theorem State.finish_beginAddr (s : State) : s.finish.beginAddr = s.beginAddr := rfl
@[simp] theorem State.finish_endAddr (s : State) : s.finish.endAddr = s.endAddr := rfl
@[simp] theorem State.finish_pos (s : State) : s.finish.pos = s.pos := rfl
@[simp] theorem State.finish_bound (s : State) : s.finish.bound = s.bound := rfl
@[simp] theorem State.finish_ovf (s : State) : s.finish.ovf = s.ovf := rfl
@[simp] theorem State.finish_mem (s : State) : s.finish.mem = s.mem := rfl
@[simp] theorem State.finish_port (s : State) : s.finish.port = s.port := rfl
@[simp] theorem State.finish_resp (s : State) : s.finish.resp = some { status := s.scratch.pending, value := 0 } := rfl
@[simp] theorem State.finish_crcAcc (s : State) : s.finish.scratch.crcAcc = s.scratch.crcAcc := rfl
@[simp] theorem State.finish_blk (s : State) : s.finish.scratch.blk = s.scratch.blk := rfl
@[simp] theorem State.finish_pending (s : State) : s.finish.scratch.pending = s.scratch.pending := rfl
@[simp] theorem State.finish_written (s : State) : s.finish.scratch.written = s.scratch.written := rfl

@[simp] theorem State.resetEngine_cfg (s : State) : s.resetEngine.cfg = s.cfg := rfl
@[simp] theorem State.resetEngine_beginAddr (s : State) : s.resetEngine.beginAddr = 0 := rfl
@[simp] theorem State.resetEngine_endAddr (s : State) : s.resetEngine.endAddr = 0 := rfl
@[simp] theorem State.resetEngine_pos (s : State) : s.resetEngine.pos = 0 := rfl
@[simp] theorem State.resetEngine_bound (s : State) : s.resetEngine.bound = false := rfl
@[simp] theorem State.resetEngine_ovf (s : State) : s.resetEngine.ovf = false := rfl
@[simp] theorem State.resetEngine_mem (s : State) : s.resetEngine.mem = s.mem := rfl
@[simp] theorem State.resetEngine_port (s : State) : s.resetEngine.port = s.port := rfl
@[simp] theorem State.resetEngine_resp (s : State) : s.resetEngine.resp = none := rfl
@[simp] theorem State.resetEngine_crcAcc (s : State) : s.resetEngine.scratch.crcAcc = 0 := rfl
@[simp] theorem State.resetEngine_blk (s : State) : s.resetEngine.scratch.blk = 0 := rfl
@[simp] theorem State.resetEngine_pending (s : State) : s.resetEngine.scratch.pending = .ok := rfl
@[simp] theorem State.resetEngine_written (s : State) : s.resetEngine.scratch.written = [] := rfl

@[simp] theorem State.offer_cfg (c : Command) (s : State) : (s.offer c).cfg = s.cfg := rfl
@[simp] theorem State.offer_beginAddr (c : Command) (s : State) : (s.offer c).beginAddr = s.beginAddr := rfl
@[simp] theorem State.offer_endAddr (c : Command) (s : State) : (s.offer c).endAddr = s.endAddr := rfl
@[simp] theorem State.offer_pos (c : Command) (s : State) : (s.offer c).pos = s.pos := rfl
@[simp] theorem State.offer_bound (c : Command) (s : State) : (s.offer c).bound = s.bound := rfl
@[simp] theorem State.offer_ovf (c : Command) (s : State) : (s.offer c).ovf = s.ovf := rfl
@[simp] theorem State.offer_mem (c : Command) (s : State) : (s.offer c).mem = s.mem := rfl
@[simp] theorem State.offer_port (c : Command) (s : State) : (s.offer c).port = .command c :: s.port := rfl
@[simp] theorem State.offer_resp (c : Command) (s : State) : (s.offer c).resp = s.resp := rfl
@[simp] theorem State.offer_crcAcc (c : Command) (s : State) : (s.offer c).scratch.crcAcc = s.scratch.crcAcc := rfl
@[simp] theorem State.offer_blk (c : Command) (s : State) : (s.offer c).scratch.blk = s.scratch.blk := rfl
@[simp] theorem State.offer_pending (c : Command) (s : State) : (s.offer c).scratch.pending = s.scratch.pending := rfl
@[simp] theorem State.offer_written (c : Command) (s : State) : (s.offer c).scratch.written = s.scratch.written := rfl

end Sys2Proof.Machine
end

