-- ==== Sys2Proof/Laws/Memory.lean ====
section
/-! SUPPORT. Memory laws: a read after a write, and that every memory operation keeps the canonical form and stays inside the
address space. -/

namespace Sys2Proof.Machine

/-- A byte just written reads back, and every other address reads as before. -/
theorem Memory.read_write (m : Memory) (a : Nat) (b : Byte) (x : Nat) :
    Memory.read (Memory.write m a b) x = if x = a then some b else Memory.read m x := by
  induction m with
  | nil => simp [Memory.write, Memory.read]
  | cons cell rest ih =>
    obtain ⟨k, v⟩ := cell
    simp only [Memory.write]
    split_ifs <;> simp_all [Memory.read]

/-- After a sequence is written, its `i`-th byte stands at `a + i` and every other address reads as before. -/
theorem Memory.read_writeSeq (d : List Byte) (m : Memory) (a x : Nat) :
    Memory.read (Memory.writeSeq m a d) x =
      if a ≤ x ∧ x < a + d.length then d[x - a]? else Memory.read m x := by
  induction d generalizing m a with
  | nil => simp [Memory.writeSeq]
  | cons b d ih =>
    rw [Memory.writeSeq, ih, Memory.read_write]
    simp only [List.length_cons]
    by_cases h : x = a
    · subst h; simp
    · by_cases h2 : a + 1 ≤ x ∧ x < a + 1 + d.length
      · have : x - a = (x - (a + 1)) + 1 := by omega
        rw [if_pos h2, if_pos (by omega), this]; simp
      · rw [if_neg h2, if_neg h, if_neg (by omega)]

theorem Memory.read_writeSeq_outside (d : List Byte) (m : Memory) (a x : Nat) (h : x < a ∨ a + d.length ≤ x) :
    Memory.read (Memory.writeSeq m a d) x = Memory.read m x := by
  rw [Memory.read_writeSeq, if_neg (by omega)]

theorem Memory.read_writeSeq_inside (d : List Byte) (m : Memory) (a i : Nat) (h : i < d.length) :
    Memory.read (Memory.writeSeq m a d) (a + i) = some d[i] := by
  rw [Memory.read_writeSeq, if_pos (by omega)]; simp [h]

/-- Two sequences written one after the other are one sequence. -/
theorem Memory.writeSeq_append (d e : List Byte) (m : Memory) (a : Nat) :
    Memory.writeSeq m a (d ++ e) = Memory.writeSeq (Memory.writeSeq m a d) (a + d.length) e := by
  induction d generalizing m a with
  | nil => simp [Memory.writeSeq]
  | cons b d ih => simp [Memory.writeSeq, ih, Nat.add_assoc, Nat.add_comm 1]

theorem Memory.risesFrom_mono {lo lo' : Nat} (h : lo' ≤ lo) {m : Memory} (hm : Memory.risesFrom lo m = true) :
    Memory.risesFrom lo' m = true := by
  cases m with
  | nil => rfl
  | cons cell rest => simp_all [Memory.risesFrom]; omega

theorem Memory.write_risesFrom (m : Memory) (lo a : Nat) (b : Byte) (h : lo ≤ a)
    (hm : Memory.risesFrom lo m = true) : Memory.risesFrom lo (Memory.write m a b) = true := by
  induction m generalizing lo with
  | nil => simp [Memory.write, Memory.risesFrom, h]
  | cons cell rest ih =>
    obtain ⟨k, v⟩ := cell
    simp only [Memory.risesFrom, Bool.and_eq_true, decide_eq_true_eq] at hm
    simp only [Memory.write]
    split_ifs with h1 h2
    · simp [Memory.risesFrom, h, hm.2]; omega
    · simp [Memory.risesFrom, hm]
    · simp [Memory.risesFrom, hm.1, ih (k + 1) (by omega) hm.2]

/-- A write keeps the canonical form. -/
theorem Memory.write_wf (m : Memory) (a : Nat) (b : Byte) (h : Memory.wf m = true) :
    Memory.wf (Memory.write m a b) = true :=
  Memory.write_risesFrom m 0 a b (Nat.zero_le a) h

/-- A sequence of writes keeps the canonical form. -/
theorem Memory.writeSeq_wf (d : List Byte) (m : Memory) (a : Nat) (h : Memory.wf m = true) :
    Memory.wf (Memory.writeSeq m a d) = true := by
  induction d generalizing m a with
  | nil => exact h
  | cons b d ih => exact ih _ _ (Memory.write_wf m a b h)

theorem Memory.below_cons (top : Nat) (cell : Host.Cell) (m : Memory) :
    Memory.below top (cell :: m) = (decide (cell.1 < top) && Memory.below top m) := rfl

theorem Memory.write_below {top : Nat} (m : Memory) (a : Nat) (b : Byte) (ha : a < top)
    (h : Memory.below top m = true) : Memory.below top (Memory.write m a b) = true := by
  induction m with
  | nil => simp [Memory.write, Memory.below, ha]
  | cons cell rest ih =>
    obtain ⟨k, v⟩ := cell
    simp only [Memory.below_cons, Bool.and_eq_true, decide_eq_true_eq] at h
    simp only [Memory.write]
    split_ifs with h1 h2 <;> simp [Memory.below_cons, h, ha, ih h.2]

theorem Memory.writeSeq_below {top : Nat} (d : List Byte) (m : Memory) (a : Nat) (ha : a + d.length ≤ top)
    (h : Memory.below top m = true) : Memory.below top (Memory.writeSeq m a d) = true := by
  induction d generalizing m a with
  | nil => exact h
  | cons b d ih =>
    simp only [List.length_cons] at ha
    exact ih _ _ (by omega) (Memory.write_below m a b (by omega) h)

/-- The memory at reset is canonical. -/
theorem Memory.reset_wf : Memory.wf State.reset.mem = true := rfl

end Sys2Proof.Machine
end

