-- ==== Sys2Proof/Laws/Ops.lean ====
section
/-! SUPPORT. What each shared operation can do, said once: every recipe step appends some bytes at `POS`, and either skipped a
write or did not. -/

namespace Sys2Proof.Machine

/-- `t` is `s` after the bytes `out` were appended at `POS`; `skipped` says whether some guarded write was skipped. Hidden
state apart from the pending status is left open. -/
structure Appended (s t : State) (out : List Byte) (skipped : Bool) : Prop where
  cfg : t.cfg = s.cfg
  beginAddr : t.beginAddr = s.beginAddr
  endAddr : t.endAddr = s.endAddr
  bound : t.bound = s.bound
  port : t.port = s.port
  resp : t.resp = s.resp
  pos : t.pos = s.pos + out.length
  mem : t.mem = Memory.writeSeq s.mem s.pos out
  ovf : t.ovf = (s.ovf || skipped)
  pending : t.scratch.pending = if skipped then .capacity else s.scratch.pending

theorem Appended.trans {s t u : State} {d e : List Byte} {k l : Bool} (h : Appended s t d k) (g : Appended t u e l) :
    Appended s u (d ++ e) (k || l) where
  cfg := g.cfg.trans h.cfg
  beginAddr := g.beginAddr.trans h.beginAddr
  endAddr := g.endAddr.trans h.endAddr
  bound := g.bound.trans h.bound
  port := g.port.trans h.port
  resp := g.resp.trans h.resp
  pos := by rw [g.pos, h.pos, List.length_append, Nat.add_assoc]
  mem := by rw [g.mem, h.mem, h.pos, Memory.writeSeq_append]
  ovf := by rw [g.ovf, h.ovf, Bool.or_assoc]
  pending := by rw [g.pending, h.pending]; cases k <;> cases l <;> rfl

/-- Changes of hidden state that keep the pending status append nothing. -/
theorem Appended.of_scratch {s t : State} (ht : t.visible = s.visible) (hp : t.scratch.pending = s.scratch.pending) :
    Appended s t [] false := by
  cases s; cases t
  simp only [State.visible, State.mk.injEq] at ht
  obtain ⟨h1, h2, h3, h4, h5, h6, h7, -, h9, h10⟩ := ht
  subst h1 h2 h3 h4 h5 h6 h7 h9 h10
  exact ⟨rfl, rfl, rfl, rfl, rfl, rfl, rfl, rfl, by simp, by simpa using hp⟩

theorem State.latchBlock_appended (s : State) : Appended s s.latchBlock [] false := .of_scratch rfl rfl

theorem State.runCrc_appended (d : List Byte) (s : State) : Appended s (s.runCrc d) [] false := .of_scratch rfl rfl

theorem State.append_appended (d : List Byte) (s : State) : Appended s (s.append d) d false :=
  ⟨rfl, rfl, rfl, rfl, rfl, rfl, rfl, rfl, by simp, rfl⟩

theorem State.raiseCapacity_appended (s : State) : Appended s s.raiseCapacity [] true :=
  ⟨rfl, rfl, rfl, rfl, rfl, rfl, rfl, rfl, by simp, rfl⟩

/-- Bytes appended are taken off the remaining capacity. -/
theorem Appended.room {s t : State} {d : List Byte} {k : Bool} (h : Appended s t d k) : t.room = s.room - d.length := by
  simp only [State.room, h.endAddr, h.pos]; omega

theorem State.fits_iff (s : State) (n : Nat) : s.fits n = true ↔ s.pos + n ≤ s.endAddr := by simp [State.fits]

/-- For one byte or more the guard is a comparison with the remaining capacity. -/
theorem State.fits_iff_room (s : State) {n : Nat} (h : 0 < n) : s.fits n = true ↔ n ≤ s.room := by
  rw [State.fits_iff, State.room]; omega

theorem State.fits_eq_room (s : State) {n : Nat} (h : 0 < n) : s.fits n = decide (n ≤ s.room) := by
  rw [Bool.eq_iff_iff, s.fits_iff_room h, decide_eq_true_iff]

@[simp] theorem State.start_room (s : State) : s.start.room = s.room := rfl
@[simp] theorem State.start_fits (s : State) (n : Nat) : s.start.fits n = s.fits n := rfl
@[simp] theorem State.latchBlock_room (s : State) : s.latchBlock.room = s.room := rfl
@[simp] theorem State.runCrc_room (d : List Byte) (s : State) : (s.runCrc d).room = s.room := rfl
@[simp] theorem crcBytes_length (c : Config) (d : List Byte) : (crcBytes c d).length = 2 := rfl
@[simp] theorem synMarker_length (c : Config) : (synMarker c).length = 2 := rfl
@[simp] theorem frameHeader_length (type : Byte) (length : Half) (seq : Byte) :
    (frameHeader type length seq).length = 4 := rfl
@[simp] theorem headerBytes_length (c : Config) (type : Byte) (length : Half) (seq : Byte) :
    (headerBytes c type length seq).length = 6 := rfl
@[simp] theorem blockBytes_length (c : Config) (rqid : Half) (tc tid iid cid : Byte) :
    (blockBytes c rqid tc tid iid cid).length = 8 := rfl

/-- The guarded write (41_primitives.md R90): all of `d` where it fits, else nothing and a skipped write. -/
theorem State.gwrite_appended (d : List Byte) (s : State) :
    Appended s (s.gwrite d) (if s.fits d.length then d else []) (!s.fits d.length) := by
  unfold State.gwrite
  split
  · simpa [*] using s.append_appended d
  · simpa [*] using s.raiseCapacity_appended

theorem State.gwrite_written (d : List Byte) (s : State) :
    (s.gwrite d).scratch.written = s.scratch.written ++ (if s.fits d.length then d else []) := by
  unfold State.gwrite; split <;> simp

/-- The guarded write of one byte or more, by the remaining capacity. -/
theorem State.gwrite_appended_room (d : List Byte) (s : State) (h : 0 < d.length) :
    Appended s (s.gwrite d) (if d.length ≤ s.room then d else []) (decide (s.room < d.length)) := by
  have := s.gwrite_appended d
  rw [s.fits_eq_room h] at this
  by_cases hd : d.length ≤ s.room
  · simpa [hd, Nat.not_lt.mpr hd] using this
  · simpa [hd, Nat.lt_of_not_le hd] using this

/-- The checksum of `d`, low byte first, where two bytes fit (41_primitives.md R98). -/
theorem State.appendCrc_appended (d : List Byte) (s : State) :
    Appended s (s.appendCrc d) (if 2 ≤ s.room then crcBytes s.cfg d else []) (decide (s.room < 2)) :=
  (s.runCrc_appended d).trans
    (State.gwrite_appended_room (le16 (crcFinish s.cfg.crc (s.runCrc d).scratch.crcAcc)) (s.runCrc d) Nat.two_pos)

/-- The SYN marker where two bytes fit (43_builders.md R122). -/
theorem synRecipe_appended (s : State) :
    Appended s (synRecipe s) (if 2 ≤ s.room then synMarker s.cfg else []) (decide (s.room < 2)) :=
  s.gwrite_appended_room (synMarker s.cfg) Nat.two_pos

/-- The frame body, its three cases (43_builders.md R125). -/
theorem frameRecipe_appended (type : Byte) (length : Half) (seq : Byte) (s : State) :
    Appended s (frameRecipe type length seq s)
      (if 6 ≤ s.room then headerBytes s.cfg type length seq
        else if 4 ≤ s.room then frameHeader type length seq else [])
      (decide (s.room < 6)) := by
  have hlatch := s.latchBlock_appended
  unfold frameRecipe
  rw [s.fits_eq_room (by decide)]
  by_cases h4 : 4 ≤ s.room
  · rw [if_pos (by simpa using h4)]
    have hw : (s.latchBlock.append (frameHeader type length seq)).scratch.written = frameHeader type length seq := by simp
    have h1 := hlatch.trans (s.latchBlock.append_appended (frameHeader type length seq))
    have h2 := h1.trans (State.appendCrc_appended (frameHeader type length seq) _)
    have hroom := h1.room
    rw [State.closeBlock, hw]
    simp only [List.nil_append, frameHeader_length] at hroom h2
    rw [hroom, h1.cfg] at h2
    have hb : headerBytes s.cfg type length seq =
        frameHeader type length seq ++ crcBytes s.cfg (frameHeader type length seq) := rfl
    by_cases h6 : 6 ≤ s.room
    · simpa [hb, h6, Nat.not_lt.mpr h6, show 2 ≤ s.room - 4 by omega, show ¬ s.room - 4 < 2 by omega] using h2
    · simpa [h6, h4, Nat.lt_of_not_le h6, show ¬ 2 ≤ s.room - 4 by omega, show s.room - 4 < 2 by omega] using h2
  · rw [if_neg (by simpa using h4)]
    simpa [h4, show ¬ 6 ≤ s.room by omega, show s.room < 6 by omega] using
      hlatch.trans s.latchBlock.raiseCapacity_appended

/-- Steps 3 to 6 of `PUSH_CMD`, their five cases (43_builders.md R131, R132, R134). -/
theorem blockRecipe_appended (rqid : Half) (tc tid iid cid : Byte) (payload : List Byte) (s : State) :
    Appended s (blockRecipe rqid tc tid iid cid payload s)
      (if 10 + payload.length ≤ s.room then
          blockBytes s.cfg rqid tc tid iid cid ++ payload ++ crcBytes s.cfg (blockBytes s.cfg rqid tc tid iid cid ++ payload)
        else if 8 + payload.length ≤ s.room then blockBytes s.cfg rqid tc tid iid cid ++ payload
        else if 10 ≤ s.room then
          blockBytes s.cfg rqid tc tid iid cid ++ crcBytes s.cfg (blockBytes s.cfg rqid tc tid iid cid)
        else if 8 ≤ s.room then blockBytes s.cfg rqid tc tid iid cid else [])
      (decide (s.room < 10 + payload.length)) := by
  have hb : blockHeader s.cfg rqid tc tid iid cid = blockBytes s.cfg rqid tc tid iid cid := rfl
  have hlen := blockBytes_length s.cfg rqid tc tid iid cid
  have hlatch := s.latchBlock_appended
  unfold blockRecipe
  rw [hb, s.fits_eq_room (by decide)]
  generalize blockBytes s.cfg rqid tc tid iid cid = blk at hlen ⊢
  by_cases h8 : 8 ≤ s.room
  · rw [if_pos (by simpa using h8)]
    have h1 := hlatch.trans (s.latchBlock.append_appended blk)
    have hw1 : (s.latchBlock.append blk).scratch.written = blk := by simp
    generalize s.latchBlock.append blk = u at h1 hw1 ⊢
    have hf : u.fits payload.length = decide (8 + payload.length ≤ s.room) := by
      rw [Bool.eq_iff_iff, State.fits_iff, decide_eq_true_iff]
      simp only [State.room, h1.pos, h1.endAddr, List.nil_append, hlen] at *
      omega
    have h2 := h1.trans (u.gwrite_appended payload)
    have hw2 := u.gwrite_written payload
    rw [hw1, hf] at hw2
    rw [hf] at h2
    generalize u.gwrite payload = v at h2 hw2
    unfold State.closeBlock
    have h3 := h2.trans (v.appendCrc_appended v.scratch.written)
    rw [hw2] at h3 ⊢
    have hroom := h2.room
    by_cases hp : 8 + payload.length ≤ s.room
    · simp only [hp, decide_true, if_true, List.nil_append, List.length_append, hlen] at hroom h3 ⊢
      rw [hroom, h2.cfg] at h3
      by_cases ht : 10 + payload.length ≤ s.room
      · simpa [ht, Nat.not_lt.mpr ht, show 2 ≤ s.room - (8 + payload.length) by omega,
          show ¬ s.room - (8 + payload.length) < 2 by omega] using h3
      · simpa [ht, Nat.lt_of_not_le ht, show ¬ 2 ≤ s.room - (8 + payload.length) by omega,
          show s.room - (8 + payload.length) < 2 by omega] using h3
    · have ht : ¬ 10 + payload.length ≤ s.room := by omega
      simp only [hp, decide_false, Bool.false_eq_true, if_false, List.nil_append, List.append_nil, hlen] at hroom h3 ⊢
      rw [hroom, h2.cfg] at h3
      by_cases h10 : 10 ≤ s.room
      · simpa [ht, h10, Nat.lt_of_not_le ht, show 2 ≤ s.room - 8 by omega] using h3
      · simpa [ht, h10, h8, Nat.lt_of_not_le ht, show ¬ 2 ≤ s.room - 8 by omega] using h3
  · rw [if_neg (by simpa using h8)]
    simpa [h8, show ¬ 10 + payload.length ≤ s.room by omega, show ¬ 8 + payload.length ≤ s.room by omega,
      show ¬ 10 ≤ s.room by omega, show s.room < 10 + payload.length by omega] using
      hlatch.trans s.latchBlock.raiseCapacity_appended

/-- An operation that runs its recipe from a fresh pending status answers with the state `State.pushed` names. -/
theorem runPush_pushed {recipe : State → State} {s : State} {out : List Byte} {skipped : Bool}
    (hb : s.bound = true) (h : Appended s.start (recipe s.start) out skipped) :
    ∃ t, runPush recipe s = .next t ∧ t.visible = (s.pushed out (!skipped)).visible := by
  refine ⟨(recipe s.start).finish, by simp [runPush, hb], ?_⟩
  have hfin := h.pending
  have h1 := h.cfg; have h2 := h.beginAddr; have h3 := h.endAddr; have h4 := h.bound; have h5 := h.port
  have h6 := h.pos; have h7 := h.mem; have h8 := h.ovf
  generalize recipe s.start = t at *
  cases t; cases s
  simp only [State.start] at *
  subst h1 h2 h3 h4 h5 h6 h7 h8
  cases skipped <;> simp_all [State.visible, State.pushed, State.finish, State.respond]

/-- While `BOUND = 0` it is refused, and nothing but the response changes (60_exceptions.md R156). -/
theorem runPush_unbound (recipe : State → State) {s : State} (hb : s.bound = false) :
    runPush recipe s = .next (s.respond .unbound 0) := by
  simp [runPush, refuse, hb]

end Sys2Proof.Machine
end

