-- ==== Sys2Proof/Laws/Cursor.lean ====
section
/-! SUPPORT. The range check of `INIT` as arithmetic, and the byte count beside a response. -/

namespace Sys2Proof.Machine

/-- The window is accepted: both fields are addresses' width and it ends at or below the top (40_cursor.md R83). -/
theorem initOutOfRange_eq_false_iff (c : Config) (storage capacity : Nat) :
    initOutOfRange c storage capacity = false ↔
      storage < 2 ^ c.aw ∧ capacity < 2 ^ c.aw ∧ storage + capacity ≤ 2 ^ c.aw := by
  simp only [initOutOfRange, Bool.or_eq_false_iff, decide_eq_false_iff_not]
  simp only [Config.addrTop]
  omega

/-- The window is refused. -/
theorem initOutOfRange_iff (c : Config) (storage capacity : Nat) :
    initOutOfRange c storage capacity = true ↔
      2 ^ c.aw ≤ storage ∨ 2 ^ c.aw ≤ capacity ∨ 2 ^ c.aw < storage + capacity := by
  rw [← Bool.not_eq_false, initOutOfRange_eq_false_iff]
  omega

/-- A response does not touch the byte count. -/
@[simp] theorem State.bytesUsed_respond (s : State) (status : Status) (value : Word) :
    (s.respond status value).bytesUsed = s.bytesUsed := rfl

end Sys2Proof.Machine
end

