-- ==== Sys2Proof/Laws/Encode.lean ====
section
/-! SUPPORT. Fields of a command word: what a field of a placed value is, and that a word is the sum of its fields. -/

namespace Sys2Proof

theorem getLsbD_place {n : Nat} (lo : Nat) (x : BitVec n) (i : Nat) :
    (place lo x).getLsbD i = (decide (i < 96) && (decide (lo ≤ i) && x.getLsbD (i - lo))) := by
  simp only [place, BitVec.getLsbD_shiftLeft, BitVec.getLsbD_setWidth]
  by_cases h2 : lo ≤ i
  · have h3 : i - lo < 96 ∨ ¬ i < 96 := by omega
    rcases h3 with h3 | h3 <;> simp [h2, h3, Nat.not_lt.mpr h2]
  · simp [h2, Nat.lt_of_not_le h2]

theorem getLsbD_field (w : CmdWord) (lo n i : Nat) :
    (field w lo n).getLsbD i = (decide (i < n) && w.getLsbD (lo + i)) := by
  simp [field, BitVec.getLsbD_extractLsb']

@[simp] theorem field_or (a b : CmdWord) (lo n : Nat) : field (a ||| b) lo n = field a lo n ||| field b lo n := by
  simp [field, BitVec.extractLsb'_or]

/-- A placed value reads back from its own field. -/
theorem field_place_self {n : Nat} (lo : Nat) (x : BitVec n) (h : lo + n ≤ 96) : field (place lo x) lo n = x := by
  apply BitVec.eq_of_getLsbD_eq
  intro i hi
  have h96 : lo + i < 96 := by omega
  rw [getLsbD_field, getLsbD_place]
  simp only [hi, h96, Nat.le_add_right, decide_true, Bool.true_and, Nat.add_sub_cancel_left]

/-- A placed value leaves every field above it zero. -/
theorem field_place_above {n m : Nat} (k lo : Nat) (x : BitVec n) (h : k + n ≤ lo) : field (place k x) lo m = 0 := by
  apply BitVec.eq_of_getLsbD_eq
  intro i hi
  have : x.getLsbD (lo + i - k) = false := BitVec.getLsbD_of_ge x _ (by omega)
  simp [getLsbD_field, getLsbD_place, this]

/-- A placed value leaves every field below it zero. -/
theorem field_place_below {n m : Nat} (k lo : Nat) (x : BitVec n) (h : lo + m ≤ k) : field (place k x) lo m = 0 := by
  apply BitVec.eq_of_getLsbD_eq
  intro i hi
  have : ¬ k ≤ lo + i := by omega
  simp [getLsbD_field, getLsbD_place, this]

/-- A field is the lower part of it beside the upper part of it. -/
theorem place_field_split (w : CmdWord) (lo n m : Nat) :
    place lo (field w lo (n + m)) = place lo (field w lo n) ||| place (lo + n) (field w (lo + n) m) := by
  apply BitVec.eq_of_getLsbD_eq
  intro i hi
  simp only [BitVec.getLsbD_or, getLsbD_place, getLsbD_field, hi, decide_true, Bool.true_and]
  by_cases h1 : lo ≤ i
  · by_cases h2 : lo + n ≤ i
    · have e : lo + (i - lo) = i := by omega
      have e' : lo + n + (i - (lo + n)) = i := by omega
      have c : ¬ i - lo < n := by omega
      have d : (i - lo < n + m) = (i - (lo + n) < m) := by simp; omega
      simp [h1, h2, e, e', c, d]
    · have e : lo + (i - lo) = i := by omega
      have c : i - lo < n := by omega
      have d : i - lo < n + m := by omega
      simp [h1, h2, e, c, d]
  · have h2 : ¬ lo + n ≤ i := by omega
    simp [h1, h2]

/-- A whole word is its 96-bit field. -/
theorem place_field_whole (w : CmdWord) : place 0 (field w 0 96) = w := by
  apply BitVec.eq_of_getLsbD_eq
  intro i hi
  rw [getLsbD_place, getLsbD_field]
  simp only [hi, Nat.zero_le, Nat.sub_zero, Nat.zero_add, decide_true, Bool.true_and]

/-- The reserved bits are zero iff every bit from the format's lowest reserved one up is. -/
theorem shiftRight_eq_zero_iff (w : CmdWord) (k : Nat) :
    w >>> k = 0 ↔ ∀ i, k ≤ i → w.getLsbD i = false := by
  constructor
  · intro h i hi
    have := congrArg (fun v => v.getLsbD (i - k)) h
    simpa [BitVec.getLsbD_ushiftRight, show k + (i - k) = i by omega] using this
  · intro h
    apply BitVec.eq_of_getLsbD_eq
    intro i _
    simp [BitVec.getLsbD_ushiftRight, h (k + i) (by omega)]

/-- A word below `2^k` has its bits from `k` up zero. -/
theorem place_shiftRight_eq_zero {n : Nat} (lo k : Nat) (x : BitVec n) (h : lo + n ≤ k) : place lo x >>> k = 0 := by
  rw [shiftRight_eq_zero_iff]
  intro i hi
  have : x.getLsbD (i - lo) = false := BitVec.getLsbD_of_ge x _ (by omega)
  simp [getLsbD_place, this]

end Sys2Proof
end

