-- ==== Sys2Proof/Laws/Exec.lean ====
section
/-! SUPPORT. What `exec` can answer, said once: the two cursor operations case by case, no operation ever refused, and a fault
only from an unguarded `PUSH_BYTES`. -/

namespace Sys2Proof.Machine

/-- `INIT` answers a next state: refused with `RANGE`, or the new binding (40_cursor.md R81, R83). -/
theorem exec_init_cases {storage capacity : Word} {s t : State} (h : exec (.init storage capacity) s = .next t) :
    (initOutOfRange s.cfg storage.toNat capacity.toNat = true ∧ t = s.respond .range 0) ∨
    (initOutOfRange s.cfg storage.toNat capacity.toNat = false ∧
      t = (s.start.bindWindow storage.toNat capacity.toNat).respond .ok 0) := by
  simp only [exec, execInit, refuse] at h
  split at h <;> simp_all

/-- `BYTES_USED` answers a next state: refused with `UNBOUND`, or the count (40_cursor.md R84). -/
theorem exec_bytesUsed_cases {s t : State} (h : exec .bytesUsed s = .next t) :
    (s.bound = false ∧ t = s.respond .unbound 0) ∨
    (s.bound = true ∧ t = s.start.respond .ok (BitVec.ofNat 32 s.bytesUsed)) := by
  simp only [exec, execBytesUsed, refuse] at h
  split at h <;> simp_all

/-- A push that runs a recipe answers a next state: refused with `UNBOUND`, or the recipe's end. -/
theorem runPush_cases {recipe : State → State} {s t : State} (h : runPush recipe s = .next t) :
    (s.bound = false ∧ t = s.respond .unbound 0) ∨ (s.bound = true ∧ t = (recipe s.start).finish) := by
  simp only [runPush, refuse] at h
  split at h <;> simp_all

/-- No operation is without a meaning. -/
theorem exec_ne_refused (i : Instr) (s : State) (r : Refusal) : exec i s ≠ .refused r := by
  cases i <;>
    simp only [exec, execInit, execBytesUsed, execPushU16, execPushBytes, execPushCrc, execPushSyn, execPushFrame,
      execPushAck, execPushNak, execPushCmd, runPush, refuse] <;>
    split_ifs <;> simp

/-- With the guard every operation answers a next state (60_exceptions.md R161). -/
theorem exec_next_of_guard (i : Instr) (s : State) (hg : s.cfg.guardPushBytes = true) : ∃ t, exec i s = .next t := by
  cases i <;>
    simp only [exec, execInit, execBytesUsed, execPushU16, execPushBytes, execPushCrc, execPushSyn, execPushFrame,
      execPushAck, execPushNak, execPushCmd, runPush, refuse] <;>
    split_ifs <;> simp_all

end Sys2Proof.Machine
end

