-- ==== Sys2Proof/Laws/PerInstr.lean ====
section
/-! SUPPORT. Per-instruction laws. `EncodesItsRow`: the word of an instruction is a legal word of its own row of
spec/opcode_table.json. -/

namespace Sys2Proof.Laws.EncodesItsRow

/-- The opcode of an instruction (30_encoding.md R61). -/
def rowOpcode : Instr → Byte
  | .init _ _ => 0x01
  | .bytesUsed => 0x02
  | .pushU16 _ => 0x03
  | .pushBytes _ => 0x04
  | .pushCrc _ => 0x05
  | .pushSyn => 0x06
  | .pushFrame _ _ _ => 0x07
  | .pushAck _ => 0x08
  | .pushNak => 0x09
  | .pushCmd _ _ _ _ _ _ _ => 0x0A

/-- The format of an instruction (30_encoding.md R61). -/
def rowFormat : Instr → Format
  | .init _ _ => .i
  | .bytesUsed => .n
  | .pushU16 _ => .v
  | .pushBytes _ => .d
  | .pushCrc _ => .d
  | .pushSyn => .n
  | .pushFrame _ _ _ => .f
  | .pushAck _ => .a
  | .pushNak => .n
  | .pushCmd _ _ _ _ _ _ _ => .c

/-- The word has the instruction's opcode, and it is legal in the instruction's format: every reserved bit is zero. -/
def Statement (i : Instr) : Prop :=
  opcode (encodeWord i) = rowOpcode i ∧ legalFormat (encodeWord i) = some (rowFormat i)

theorem of_parts {i : Instr} (ho : opcode (encodeWord i) = rowOpcode i)
    (hf : formatOf (rowOpcode i) = some (rowFormat i)) (hr : encodeWord i >>> (rowFormat i).reservedFrom = 0) :
    Statement i := by
  refine ⟨ho, ?_⟩
  simp [legalFormat, ho, hf, hr]

theorem init (storage capacity : Word) : Statement (.init storage capacity) := by
  refine of_parts ?_ rfl ?_ <;>
    simp [encodeWord, opcode, rowOpcode, rowFormat, Format.reservedFrom, BitVec.ushiftRight_or_distrib,
      field_place_self, field_place_below, place_shiftRight_eq_zero]

theorem bytesUsed : Statement .bytesUsed := by
  refine of_parts ?_ rfl ?_ <;> decide

theorem pushU16 (value : Half) : Statement (.pushU16 value) := by
  refine of_parts ?_ rfl ?_ <;>
    simp [encodeWord, opcode, rowOpcode, rowFormat, Format.reservedFrom, BitVec.ushiftRight_or_distrib,
      field_place_self, field_place_below, place_shiftRight_eq_zero]

theorem pushBytes (data : List Byte) : Statement (.pushBytes data) := by
  refine of_parts ?_ rfl ?_ <;>
    simp [encodeWord, opcode, rowOpcode, rowFormat, Format.reservedFrom, BitVec.ushiftRight_or_distrib,
      field_place_self, field_place_below, place_shiftRight_eq_zero]

theorem pushCrc (data : List Byte) : Statement (.pushCrc data) := by
  refine of_parts ?_ rfl ?_ <;>
    simp [encodeWord, opcode, rowOpcode, rowFormat, Format.reservedFrom, BitVec.ushiftRight_or_distrib,
      field_place_self, field_place_below, place_shiftRight_eq_zero]

theorem pushSyn : Statement .pushSyn := by
  refine of_parts ?_ rfl ?_ <;> decide

theorem pushFrame (type : Byte) (length : Half) (seq : Byte) : Statement (.pushFrame type length seq) := by
  refine of_parts ?_ rfl ?_ <;>
    simp [encodeWord, opcode, rowOpcode, rowFormat, Format.reservedFrom, BitVec.ushiftRight_or_distrib,
      field_place_self, field_place_below, place_shiftRight_eq_zero]

theorem pushAck (seq : Byte) : Statement (.pushAck seq) := by
  refine of_parts ?_ rfl ?_ <;>
    simp [encodeWord, opcode, rowOpcode, rowFormat, Format.reservedFrom, BitVec.ushiftRight_or_distrib,
      field_place_self, field_place_below, place_shiftRight_eq_zero]

theorem pushNak : Statement .pushNak := by
  refine of_parts ?_ rfl ?_ <;> decide

theorem pushCmd (seq : Byte) (rqid : Half) (tc tid iid cid : Byte) (payload : List Byte) :
    Statement (.pushCmd seq rqid tc tid iid cid payload) := by
  refine of_parts ?_ rfl ?_ <;>
    simp [encodeWord, opcode, rowOpcode, rowFormat, Format.reservedFrom, BitVec.ushiftRight_or_distrib,
      field_place_self, field_place_below, place_shiftRight_eq_zero]

end Sys2Proof.Laws.EncodesItsRow
end

