-- ==== Sys2Proof/Tests/Slice0.lean ====
section
/-! SUPPORT. The model's own tests: the well-formedness smoke test, decoding of words written out from 95_test_vectors.md 2.5,
single steps against the vectors of 95_test_vectors.md Parts 1 and 2, and for each obligation with hypotheses a witness
that meets them. -/

namespace Sys2Proof.Tests

open Sys2Proof.Machine

/-! ## Helpers -/

/-- A binding over `r` bytes at 0x1000 with nothing pushed yet (the start state of most vectors). -/
def win (r : Nat) : State :=
  { State.reset with beginAddr := 0x1000, endAddr := 0x1000 + r, pos := 0x1000, bound := true }

/-- The same binding in an engine built without the guard of `PUSH_BYTES`. -/
def winBare (r : Nat) : State := { win r with cfg := { defaultConfig with guardPushBytes := false } }

/-- The command of the vectors of 95_test_vectors.md 2.4. -/
def cmdAB : Instr := .pushCmd 1 0x0042 0x01 0x02 0x00 0x03 [0xAA, 0xBB]

/-- Something read off the next state, if there is one. -/
def after {α : Type} (f : State → α) : Host.Outcome State Fault Refusal → Option α
  | .next t => some (f t)
  | .fault _ => none
  | .refused _ => none

/-- The `n` bytes from 0x1000 up; none where nothing was written. -/
def bytesAt (n : Nat) (s : State) : List (Option Byte) := (List.range n).map fun k => Memory.read s.mem (0x1000 + k)

/-- Status, byte count and `OVF`. -/
def ends (s : State) : Option Status × Nat × Bool := (s.status, s.pos - s.beginAddr, s.ovf)

/-- A state with one command queued. -/
def queued (s : State) (word : CmdWord) (stream : List Byte) : State := s.offer ⟨word, stream⟩

/-! ## Well-formedness: the one check, a byte sequence longer than MAXLEN (30_encoding.md R70) -/

theorem test_wf_accepts : (Instr.pushBytes [1, 2, 3]).wf 3 = true := by decide
theorem test_wf_refuses_bytes : (Instr.pushBytes [1, 2, 3, 4]).wf 3 = false := by decide
theorem test_wf_refuses_crc : (Instr.pushCrc [1]).wf 0 = false := by decide
theorem test_wf_refuses_payload : (Instr.pushCmd 0 0 0 0 0 0 [1, 2]).wf 1 = false := by decide
theorem test_wf_default_config : defaultConfig.wf = true := by decide
theorem test_wf_refuses_equal_types : ({ defaultConfig with tNak := 0x40 } : Config).wf = false := by decide
theorem test_wf_refuses_address_width : ({ defaultConfig with aw := 33 } : Config).wf = false := by decide

/-! ## Decoding: each row's word as 95_test_vectors.md 2.5 prints it -/

theorem test_decode_init : decode 65535 ⟨0x0000000000000A0000100001, []⟩ = .op (.init 0x1000 10) := by decide
theorem test_decode_bytesUsed : decode 65535 ⟨0x000000000000000000000002, []⟩ = .op .bytesUsed := by decide
theorem test_decode_pushU16 : decode 65535 ⟨0x000000000000000000123403, []⟩ = .op (.pushU16 0x1234) := by decide
theorem test_decode_pushBytes :
    decode 65535 ⟨0x000000000000000000000204, [0xAA, 0xBB]⟩ = .op (.pushBytes [0xAA, 0xBB]) := by decide
theorem test_decode_pushCrc :
    decode 65535 ⟨0x000000000000000000000405, [0x40, 0, 0, 5]⟩ = .op (.pushCrc [0x40, 0, 0, 5]) := by decide
theorem test_decode_pushSyn : decode 65535 ⟨0x000000000000000000000006, []⟩ = .op .pushSyn := by decide
theorem test_decode_pushFrame :
    decode 65535 ⟨0x0000000000000001000A8007, []⟩ = .op (.pushFrame 0x80 10 1) := by decide
theorem test_decode_pushAck : decode 65535 ⟨0x00000000000000000000FF08, []⟩ = .op (.pushAck 255) := by decide
theorem test_decode_pushNak : decode 65535 ⟨0x000000000000000000000009, []⟩ = .op .pushNak := by decide
theorem test_decode_pushCmd :
    decode 65535 ⟨0x000000000D0001111234100A, []⟩ = .op (.pushCmd 0x10 0x1234 0x11 0x01 0x00 0x0D []) := by decide

/-- The illegal words of 95_test_vectors.md 2.5. -/
theorem test_decode_illegal :
    ([0x000000000000000000000000, 0x00000000000000000000000B, 0x000000000000000000000106, 0x000000000000000000010508,
      0x000000000000000001004203, 0x0000010000000A0000100001] : List CmdWord).map (fun w => decode 65535 ⟨w, []⟩) =
    List.replicate 6 .illegal := by decide

/-- The stream of another length than `len` spells no command (30_encoding.md R62). -/
theorem test_decode_short_stream : decode 65535 ⟨0x000000000000000000000204, [0xAA]⟩ = .noCommand := by decide

/-- The 12 bytes of a word, byte 0 the opcode (95_test_vectors.md 2.5). -/
theorem test_word_bytes :
    wordBytes 0x00000002030002010042010A =
      [0x0A, 0x01, 0x42, 0x00, 0x01, 0x02, 0x00, 0x03, 0x02, 0x00, 0x00, 0x00] := by decide

theorem test_encode_init : encodeWord (.init 0xFFFFFFF0 16) = 0x00000000000010FFFFFFF001 := by decide
theorem test_encode_pushCmd : encodeWord cmdAB = 0x00000002030002010042010A := by decide

/-- Table words: the row's pattern, its `len` field not zero, the stream zeros. -/
theorem test_table_word : decodeTableWord 96 0x000000000000000000000204 = some (.pushBytes [0, 0]) := by decide
theorem test_table_word_illegal : decodeTableWord 96 0x00000000000000000000000B = none := by decide

/-- The very next step runs the placed word. -/
theorem test_fetch_word :
    after (fun t => (t.pos, t.endAddr, t.port)) (step (State.reset.withFetchWord 96 0x0000000000000A0000100001)) =
      some (0x1000, 0x100A, []) := by decide

/-! ## Assembly lines (30_encoding.md R75) -/

theorem test_asm_hex_bytes : assemble defaultConfig "push_crc [40 00 00 05]" = .op (.pushCrc [0x40, 0, 0, 5]) := by decide
theorem test_asm_comment : assemble defaultConfig "  # nothing" = .empty := by decide
theorem test_asm_named_type : assemble defaultConfig "push_frame DSEQ, 10, 1" = .op (.pushFrame 0x80 10 1) := by decide
theorem test_asm_reads_what_it_writes :
    assemble defaultConfig (String.ofList (writeLine cmdAB)) = .op cmdAB := by decide

/-! ## Single steps, at most two per instruction -/

/-- V6: a window that ends at the top of the address space. -/
theorem test_init_top :
    after (fun t => (t.beginAddr, t.endAddr, t.pos, t.status)) (exec (.init 0xFFFFFFF0 16) State.reset) =
      some (0xFFFFFFF0, 0x100000000, 0xFFFFFFF0, some .ok) := by decide
/-- V7: one byte more is refused. -/
theorem test_init_past_top :
    after (fun t => (t.bound, t.resp)) (exec (.init 0xFFFFFFF0 17) State.reset) =
      some (false, some ⟨.range, 0⟩) := by decide
/-- P3 step 5: after an overflow the count is answered with `OK`. -/
theorem test_bytesUsed_after_overflow :
    after (fun t => (t.resp, t.ovf)) (exec .bytesUsed { win 9 with pos := 0x1008, ovf := true }) =
      some (some ⟨.ok, 8⟩, true) := by decide
/-- V10. -/
theorem test_bytesUsed_unbound : after State.resp (exec .bytesUsed State.reset) = some (some ⟨.unbound, 0⟩) := by decide
/-- V20. -/
theorem test_pushU16 : after (bytesAt 3) (exec (.pushU16 0x0042) (win 4)) = some [some 0x42, some 0x00, none] := by decide
/-- V24, its second command: one byte free, not written. -/
theorem test_pushU16_one_free :
    after (fun t => (t.mem, ends t)) (exec (.pushU16 0xBEEF) { win 4 with pos := 0x1003 }) =
      some ([], some .capacity, 3, true) := by decide
/-- V25: exact fill. -/
theorem test_pushBytes_exact :
    after (fun t => (bytesAt 5 t, ends t)) (exec (.pushBytes [1, 2, 3, 4]) (win 4)) =
      some ([some 1, some 2, some 3, some 4, none], some .ok, 4, false) := by decide
/-- V27: without the guard, a copy that does not fit is the fault. -/
theorem test_pushBytes_unguarded : exec (.pushBytes [1, 2, 3, 4, 5]) (winBare 4) = .fault .writeOutsideWindow := rfl
/-- V32: the check value, low byte first; the data is not written. -/
theorem test_pushCrc :
    after (bytesAt 3) (exec (.pushCrc [0x31, 0x32, 0x33, 0x34, 0x35, 0x36, 0x37, 0x38, 0x39]) (win 4)) =
      some [some 0xB1, some 0x29, none] := by decide +kernel
/-- V31. -/
theorem test_pushCrc_empty : after (bytesAt 2) (exec (.pushCrc []) (win 4)) = some [some 0xFF, some 0xFF] := by decide
/-- 95_test_vectors.md 2.4, `push_syn` at `r = 2` and `r = 1`. -/
theorem test_pushSyn : after (bytesAt 3) (exec .pushSyn (win 2)) = some [some 0xAA, some 0x55, none] := by decide
theorem test_pushSyn_one_free : after ends (exec .pushSyn (win 1)) = some (some .capacity, 0, true) := by decide
/-- 95_test_vectors.md 2.4, `push_frame 0x80, 0xFFFF, 0xFF` at `r = 6` and `r = 5`. -/
theorem test_pushFrame :
    after (bytesAt 7) (exec (.pushFrame 0x80 0xFFFF 0xFF) (win 6)) =
      some [some 0x80, some 0xFF, some 0xFF, some 0xFF, some 0x94, some 0x8B, none] := by decide +kernel
theorem test_pushFrame_header_only :
    after ends (exec (.pushFrame 0x80 0xFFFF 0xFF) (win 5)) = some (some .capacity, 4, true) := by decide
/-- S1. -/
theorem test_pushAck :
    after (bytesAt 11) (exec (.pushAck 5) (win 10)) =
      some [some 0xAA, some 0x55, some 0x40, some 0x00, some 0x00, some 0x05, some 0xF9, some 0xBA, some 0xFF, some 0xFF,
        none] := by decide +kernel
/-- S3: nine bytes of room, the trailing checksum skipped. -/
theorem test_pushAck_nine : after ends (exec (.pushAck 5) (win 9)) = some (some .capacity, 8, true) := by decide
/-- S4. -/
theorem test_pushNak :
    after (bytesAt 10) (exec .pushNak (win 10)) =
      some [some 0xAA, some 0x55, some 0x04, some 0x00, some 0x00, some 0x00, some 0x31, some 0x4E, some 0xFF,
        some 0xFF] := by decide +kernel
/-- 43_builders.md R128, row `r = 4`: the header skipped, the checksum of nothing still written. -/
theorem test_pushNak_four :
    after (bytesAt 5) (exec .pushNak (win 4)) = some [some 0xAA, some 0x55, some 0xFF, some 0xFF, none] := by decide
/-- S2. -/
theorem test_pushCmd :
    after (bytesAt 20) (exec cmdAB (win 20)) =
      some [some 0xAA, some 0x55, some 0x80, some 0x0A, some 0x00, some 0x01, some 0x18, some 0x8E, some 0x80, some 0x01,
        some 0x02, some 0x00, some 0x00, some 0x42, some 0x00, some 0x03, some 0xAA, some 0xBB, some 0x36,
        some 0x89] := by decide +kernel
/-- 95_test_vectors.md 2.4: payload of three bytes in 18: skipped, and the checksum is that of the block header alone. -/
theorem test_pushCmd_payload_skipped :
    after (fun t => ((bytesAt 19 t).drop 15, ends t)) (exec (.pushCmd 1 0x0042 0x01 0x02 0x00 0x03 [0xAA, 0xBB, 0xCC]) (win 18)) =
      some ([some 0x03, some 0x30, some 0xBC, none], some .capacity, 18, true) := by decide +kernel

/-! ## The host's moves -/

theorem test_step_idle : step State.reset = .next State.reset := rfl
theorem test_step_illegal :
    after (fun t => (t.resp, t.port)) (step (queued (win 4) 0x000000000000000000000106 [])) =
      some (some ⟨.illegal, 0⟩, []) := by decide
/-- A write below, at and above listed bytes keeps the canonical form. -/
theorem test_memory_canonical :
    Memory.write (Memory.write (Memory.write [(5, 1)] 7 2) 3 9) 5 8 = [(3, 9), (5, 8), (7, 2)] := by decide
/-- The 40-bit response word `(OK, 10)` (95_test_vectors.md 2.5). -/
theorem test_response_word : (Response.pack ⟨.ok, 10⟩) = 0x0000000A00 := by decide

/-! ## Witnesses: for each obligation with hypotheses, a state and operands that meet all of them, clause by clause -/

/-- `win r` meets the invariant wherever the window lies inside the address space. -/
theorem win_inv : (win 4).Inv :=
  ⟨by decide, by decide, by decide, by decide, by decide, by decide, by decide, by decide, by decide, by decide⟩

theorem test_witness_EncodeThenDecode : (65535 : Nat) ≤ 65535 ∧ cmdAB.wf 65535 = true := by decide
theorem test_witness_DecodeThenEncode : decode 65535 (encode cmdAB) = .op cmdAB := by decide
/-- The three grounds of an illegal word, the last at the lowest and the highest reserved bit of format V. -/
theorem test_witness_IllegalWordIsAnswered :
    (queued (win 4) 0x0 []).port = .command ⟨0x0, []⟩ :: [] ∧ opcode 0x0 = 0x00 ∧ 0x0B ≤ (opcode 0x0B).toNat ∧
      formatOf (opcode 0x000000000000000001004203) = some .v ∧ Format.v.reservedFrom = 24 ∧
      (0x000000000000000001004203 : CmdWord).getLsbD 24 = true ∧
      (0x800000000000000000004203 : CmdWord).getLsbD 95 = true := by decide
/-- Formats D, C and N, each beside one stream byte too few or too many. -/
theorem test_witness_StreamMismatchIsNoCommand :
    (queued (win 4) 0x000000000000000000000204 [0xAA]).port = .command ⟨0x000000000000000000000204, [0xAA]⟩ :: [] ∧
      legalFormat 0x000000000000000000000204 = some .d ∧ ([0xAA] : List Byte).length ≠ (field 0x000000000000000000000204 8 16).toNat ∧
      legalFormat 0x00000002030002010042010A = some .c ∧ ([0xAA] : List Byte).length ≠ (field 0x00000002030002010042010A 64 16).toNat ∧
      legalFormat 0x000000000000000000000006 = some .n ∧ ([0xAA] : List Byte) ≠ [] := by decide
theorem test_witness_CommandBytesLaidEndToEnd :
    ([0xAA, 0xBB] : List Byte).length = streamLen 0x000000000000000000000204 := by decide
theorem test_witness_StepRunsDecodedInstruction :
    (queued (win 4) 0x000000000000000000000006 []).port = .command ⟨0x000000000000000000000006, []⟩ :: [] ∧
      decode (win 4).cfg.maxLen ⟨0x000000000000000000000006, []⟩ = .op .pushSyn := by decide
/-- Idle, reset, a write at the last address and one past it. -/
theorem test_witness_HostMovesBetweenCommands :
    State.reset.port = [] ∧ ({ win 4 with port := [.reset] } : State).port = .reset :: [] ∧
      ({ win 4 with port := [.write 0xFFFFFFFF 7] } : State).port = .write 0xFFFFFFFF 7 :: [] ∧
      0xFFFFFFFF < 2 ^ (win 4).cfg.aw ∧ 2 ^ (win 4).cfg.aw ≤ 0x100000000 := by decide
theorem test_witness_ResetAcceptsOnlyInit : isInit .pushSyn = false ∧ isInit (.init 0 0) = true := by decide
theorem test_witness_StepKeepsInvariant :
    (queued (win 4) 0x000000000000000000000006 []).Inv ∧
      ∃ t, step (queued (win 4) 0x000000000000000000000006 []) = .next t :=
  have h := win_inv
  ⟨⟨h.cfg_wf, h.mem_wf, h.mem_below, h.begin_lt, h.end_le, h.pos_le, h.begin_le_pos, h.pos_le_end, h.window_lt, h.ovf_bound⟩,
    _, rfl⟩
theorem test_witness_StepKeepsConfiguration : ∃ t, step (queued (win 4) 0x000000000000000000000006 []) = .next t := ⟨_, rfl⟩
/-- A push; an `INIT` accepted; an `INIT` refused. -/
theorem test_witness_OnlyInitMovesTheWindow :
    (∃ t, exec .pushSyn (win 4) = .next t) ∧
      after State.status (exec (.init 0x2000 4) (win 4)) = some (some .ok) ∧
      after State.status (exec (.init 0xFFFFFFFF 2) (win 4)) = some (some .range) := ⟨⟨_, rfl⟩, by decide, by decide⟩
/-- A push that ends `CAPACITY` and one that does not, `OVF` set before; an `INIT` accepted and one refused over it. -/
theorem test_witness_OverflowFlagIsSticky :
    after ends (exec .pushSyn (win 1)) = some (some .capacity, 0, true) ∧
      after ends (exec .pushSyn { win 2 with ovf := true }) = some (some .ok, 2, true) ∧
      after ends (exec (.init 0x1000 4) { win 2 with ovf := true }) = some (some .ok, 0, false) ∧
      after ends (exec (.init 0xFFFFFFFF 2) { win 2 with ovf := true }) = some (some .range, 0, true) := by decide
/-- A next state and a fault. -/
theorem test_witness_OverflowFlagSteersNothing :
    (∃ t, exec .pushSyn (win 4) = .next t) ∧ exec (.pushBytes [1, 2]) (winBare 1) = .fault .writeOutsideWindow := ⟨⟨_, rfl⟩, rfl⟩
theorem test_witness_HiddenStateIsNotObservable :
    (∃ t, exec (.pushCrc []) (win 4) = .next t) ∧ exec (.pushBytes [1]) (winBare 0) = .fault .writeOutsideWindow := ⟨⟨_, rfl⟩, rfl⟩
/-- `OK` and `CAPACITY` of a push under the invariant, and an accepted `INIT`. -/
theorem test_witness_BytesUsedCountsAppendedBytes :
    (win 4).Inv ∧ after ends (exec (.pushU16 1) (win 4)) = some (some .ok, 2, false) ∧
      after ends (exec (.pushBytes [1, 2, 3, 4, 5]) (win 4)) = some (some .capacity, 0, true) ∧
      after ends (exec (.init 0x1000 9) (win 4)) = some (some .ok, 0, false) := ⟨win_inv, by decide, by decide, by decide⟩
/-- The byte below `POS` and the byte at `END`. -/
theorem test_witness_CommandsWriteOnlyInsideTheWindow :
    (∃ t, exec (.pushBytes [1, 2, 3, 4]) (win 4) = .next t) ∧ 0x0FFF < (win 4).pos ∧ (win 4).endAddr ≤ 0x1004 :=
  ⟨⟨_, rfl⟩, by decide, by decide⟩
theorem test_witness_PushesLeaveTheRestUnchanged :
    isPush .pushSyn = true ∧ after (fun t => (t.pos, decide (0x0FFF < (win 4).pos))) (exec .pushSyn (win 4)) = some (0x1002, true) := by
  decide
theorem test_witness_CursorOperationsStoreNothing :
    (∃ t, exec (.init 0 0) (win 4) = .next t) ∧ ∃ t, exec .bytesUsed (win 4) = .next t := ⟨⟨_, rfl⟩, ⟨_, rfl⟩⟩
/-- A frame whose header does not fit by one byte, an ACK, a command that is refused. -/
theorem test_witness_CrcUnitFrame :
    (∃ t, exec (.pushFrame 0x80 0 0) (win 3) = .next t) ∧ (win 3).endAddr < (win 3).pos + 4 ∧
      (∃ t, exec (.pushAck 0) (win 3) = .next t) ∧ (win 3).bound = true ∧
      (∃ t, exec cmdAB State.reset = .next t) ∧ State.reset.bound = false :=
  ⟨⟨_, rfl⟩, by decide, ⟨_, rfl⟩, rfl, ⟨_, rfl⟩, rfl⟩
/-- A window that ends exactly at the top of the address space, over an existing binding. -/
theorem test_witness_InitBindsTheWindow :
    (0xFFFFFFF0 : Word).toNat < 2 ^ (win 4).cfg.aw ∧ (16 : Word).toNat < 2 ^ (win 4).cfg.aw ∧
      (0xFFFFFFF0 : Word).toNat + (16 : Word).toNat ≤ 2 ^ (win 4).cfg.aw := by decide
/-- One byte past the top; a field bit at `AW` where `AW` is 16; the accepted boundary. -/
theorem test_witness_InitPastTheTopIsRefused :
    2 ^ (win 4).cfg.aw < (0xFFFFFFF0 : Word).toNat + (17 : Word).toNat ∧
      2 ^ ({ defaultConfig with aw := 16 } : Config).aw ≤ (0x10000 : Word).toNat ∧
      (0xFFFFFFF0 : Word).toNat + (16 : Word).toNat = 2 ^ (win 4).cfg.aw ∧ 0 < (16 : Word).toNat ∧
      0 < (0xFFFFFFF0 : Word).toNat := by decide
/-- A binding, and the reset state, unbound. -/
theorem test_witness_BytesUsedAnswersPosMinusBegin :
    ((win 4).Inv ∧ (win 4).bound = true) ∧ State.reset.bound = false := ⟨⟨win_inv, rfl⟩, rfl⟩
theorem test_witness_UnboundOperationIsRefused : isInit .bytesUsed = false ∧ State.reset.bound = false := by decide
/-- Room for exactly two bytes, and one byte less. -/
theorem test_witness_PushU16Appends : (win 2).bound = true ∧ (win 2).pos + 2 ≤ (win 2).endAddr := by decide
theorem test_witness_PushU16ViolationWritesNothing : (win 1).bound = true ∧ (win 1).endAddr < (win 1).pos + 2 := by decide
/-- Exact fill, with the byte read back. -/
theorem test_witness_PushBytesGuarded :
    (win 2).bound = true ∧ (win 2).cfg.guardPushBytes = true ∧ (win 2).pos + ([1, 2] : List Byte).length ≤ (win 2).endAddr ∧
      1 < ([1, 2] : List Byte).length := by decide
/-- Exact fill, and one byte less of room. -/
theorem test_witness_PushBytesUnguarded :
    (winBare 2).bound = true ∧ (winBare 2).cfg.guardPushBytes = false ∧
      (winBare 2).pos + ([1, 2] : List Byte).length ≤ (winBare 2).endAddr ∧
      (winBare 1).endAddr < (winBare 1).pos + ([1, 2] : List Byte).length := by decide
/-- A full window, and an exact fill. -/
theorem test_witness_PushBytesEmptyAndExactFill :
    (win 0).bound = true ∧ (win 0).pos ≤ (win 0).endAddr ∧ (win 2).pos + ([1, 2] : List Byte).length = (win 2).endAddr := by decide
/-- Both copies succeed; the joined copy does not fit. -/
theorem test_witness_PushBytesConcatenates :
    (win 4).bound = true ∧ (win 4).cfg.guardPushBytes = true ∧
      after State.status (exec (.pushBytes [1, 2]) (win 4)) = some (some .ok) ∧
      after State.status (exec (.pushBytes [3, 4]) { win 4 with pos := 0x1002 }) = some (some .ok) ∧
      (win 3).endAddr < (win 3).pos + ([1, 2] ++ [3, 4] : List Byte).length := by decide
theorem test_witness_PushU16IsPushBytes : (win 1).cfg.guardPushBytes = true := by decide
/-- For `PushCrcAppendsTheChecksum`, `PushSynAppendsTheMarker`, `PushFrameAppendsHeaderAndChecksum`, `PushAckAtEveryCapacity`,
`PushNakAtEveryCapacity` and `AckAndNakExpand`, whose hypothesis is the same. -/
theorem test_witness_bound : (win 10).bound = true ∧ (win 0).bound = true := by decide
/-- The largest payload the length field can carry, and one byte more. -/
theorem test_witness_PushCmdAtEveryCapacity :
    (win 17).bound = true ∧ (List.replicate 65527 (0 : Byte)).length ≤ 65527 := ⟨rfl, List.length_replicate.le⟩
theorem test_witness_PushCmdTooLongIsRefused :
    (win 17).bound = true ∧ 65528 ≤ (List.replicate 65528 (0 : Byte)).length ∧
      (List.replicate 65527 (0 : Byte)).length ≤ 65527 := ⟨rfl, List.length_replicate.ge, List.length_replicate.le⟩
/-- Room for exactly the output, and one byte less. -/
theorem test_witness_StatusOkIffTheOutputFits :
    isPush cmdAB = true ∧ payloadOutOfRange cmdAB = false ∧ (win 20).bound = true ∧ (win 20).pos ≤ (win 20).endAddr ∧
      (win 20).cfg.guardPushBytes = true ∧ (win 20).pos + byteCount cmdAB ≤ (win 20).endAddr ∧
      (win 19).endAddr < (win 19).pos + byteCount cmdAB := by decide
/-- Two bindings of one capacity at different addresses. -/
theorem test_witness_OutputDependsOnRoomAlone :
    let u : State := { win 10 with beginAddr := 0x7000, pos := 0x7000, endAddr := 0x700A }
    isPush (.pushAck 5) = true ∧ (win 10).cfg = u.cfg ∧ (win 10).bound = true ∧ u.bound = true ∧
      (win 10).pos ≤ (win 10).endAddr ∧ u.pos ≤ u.endAddr ∧ (win 10).endAddr - (win 10).pos = u.endAddr - u.pos ∧
      ∃ t, exec (.pushAck 5) (win 10) = .next t :=
  ⟨rfl, rfl, rfl, rfl, by decide, by decide, rfl, _, rfl⟩
/-- Room for the header alone. -/
theorem test_witness_FrameExpandsWhereTheHeaderFits : (win 4).bound = true ∧ (win 4).pos + 4 ≤ (win 4).endAddr := by decide
/-- Room for exactly the whole frame. -/
theorem test_witness_CmdExpandsWhereTheFrameFits :
    (win 20).bound = true ∧ ([0xAA, 0xBB] : List Byte).length ≤ 65527 ∧
      (win 20).pos + (18 + ([0xAA, 0xBB] : List Byte).length) ≤ (win 20).endAddr := by decide
/-- A window of exactly the frame's size that ends at the top of the address space. -/
theorem test_witness_InitThenCmdLeavesTheFrame :
    (0xFFFFFFEC : Word).toNat < 2 ^ State.reset.cfg.aw ∧ (20 : Word).toNat < 2 ^ State.reset.cfg.aw ∧
      (0xFFFFFFEC : Word).toNat + (20 : Word).toNat ≤ 2 ^ State.reset.cfg.aw ∧
      ([0xAA, 0xBB] : List Byte).length ≤ 65527 ∧ 18 + ([0xAA, 0xBB] : List Byte).length ≤ (20 : Word).toNat := by decide
theorem test_witness_CmdFieldsStandAtTheirOffsets :
    (win 20).bound = true ∧ ([0xAA, 0xBB] : List Byte).length ≤ 65527 ∧
      (win 20).pos + (18 + ([0xAA, 0xBB] : List Byte).length) ≤ (win 20).endAddr ∧ ∃ t, exec cmdAB (win 20) = .next t :=
  ⟨rfl, by decide, by decide, _, rfl⟩
theorem test_witness_AckAgainstNak :
    (win 10).cfg.wf = true ∧ (win 10).bound = true ∧ (win 10).pos + 10 ≤ (win 10).endAddr ∧
      (∃ t, exec (.pushAck 0) (win 10) = .next t) ∧ ∃ u, exec .pushNak (win 10) = .next u :=
  ⟨by decide, rfl, by decide, ⟨_, rfl⟩, ⟨_, rfl⟩⟩
theorem test_witness_CrcIsAffine : ([0x40, 0, 0, 5] : List Byte).length = ([0x04, 0, 0, 0] : List Byte).length := by decide
/-- A burst of 16 bits across three bytes. -/
theorem test_witness_CrcDetectsBursts :
    let a : List Byte := [0x01, 0x00, 0x80, 0x00]
    let b : List Byte := [0x00, 0x00, 0x00, 0x00]
    a.length = b.length ∧ a ≠ b ∧
      ∀ j, (a.getD (j / 8) 0).getMsbD (j % 8) ≠ (b.getD (j / 8) 0).getMsbD (j % 8) → 7 ≤ j ∧ j < 7 + 16 := by
  refine ⟨rfl, by decide, fun j h => ?_⟩
  by_cases hj : j < 32
  · revert h
    exact (by decide : ∀ k : Fin 32, (([0x01, 0x00, 0x80, 0x00] : List Byte).getD (k / 8) 0).getMsbD (k % 8) ≠
      (([0x00, 0x00, 0x00, 0x00] : List Byte).getD (k / 8) 0).getMsbD (k % 8) → 7 ≤ k.val ∧ k.val < 7 + 16) ⟨j, hj⟩
  · have h8 : 4 ≤ j / 8 := by omega
    simp [h8] at h
/-- A legal command, an illegal word. -/
theorem test_witness_EveryCommandIsAnswered :
    (queued (win 4) 0x000000000000000000000006 []).port = .command ⟨0x000000000000000000000006, []⟩ :: [] ∧
      decode (win 4).cfg.maxLen ⟨0x000000000000000000000006, []⟩ ≠ .noCommand ∧
      decode (win 4).cfg.maxLen ⟨0x000000000000000000000000, []⟩ ≠ .noCommand ∧ (win 4).cfg.guardPushBytes = true := by decide

end Sys2Proof.Tests
end

section
/-! The command port: what a step does with the oldest queued command (00_scope.md R11; 30_encoding.md R60, R71). -/

namespace Sys2Proof.Machine

/-- The command is met with itself already off the queue. -/
theorem step_of_command {s : State} {c : Command} {rest : List HostMove} (hport : s.port = .command c :: rest) :
    step s = acceptCommand exec c { s with port := rest } := by
  simp only [step, serve, hport, meetMove]

theorem acceptCommand_of_decode_op {run : Instr → State → Host.Outcome State Fault Refusal} {c : Command} {s : State}
    {i : Instr} (hdec : decode s.cfg.maxLen c = .op i) : acceptCommand run c s = run i s := by
  simp only [acceptCommand, hdec]

/-- Settles O9: taking the command off the queue leaves the configuration, so it decodes to the same operation there. -/
theorem stepRunsDecodedInstruction : Obligations.StepRunsDecodedInstruction := by
  intro s c rest i hport hdec
  calc step s = acceptCommand exec c { s with port := rest } := step_of_command hport
    _ = exec i { s with port := rest } := acceptCommand_of_decode_op hdec

end Sys2Proof.Machine
end

section
/-! What every operation but `INIT` does, said once: it appends some bytes that fit, and answers. The bytes are fixed by the
configuration and the window alone, so two runs that differ in `OVF` and hidden state append the same
(10_state.md R21, R25; 41_primitives.md R90). -/

namespace Sys2Proof.Machine

/-! ## Two runs side by side -/

/-- The two states differ at most in `OVF` and in hidden state. -/
structure SameButFlags (s s' : State) : Prop where
  cfg : s'.cfg = s.cfg
  beginAddr : s'.beginAddr = s.beginAddr
  endAddr : s'.endAddr = s.endAddr
  pos : s'.pos = s.pos
  bound : s'.bound = s.bound
  mem : s'.mem = s.mem
  port : s'.port = s.port
  resp : s'.resp = s.resp

theorem SameButFlags.refl (s : State) : SameButFlags s s := ⟨rfl, rfl, rfl, rfl, rfl, rfl, rfl, rfl⟩

theorem SameButFlags.visible_eq {s s' : State} (h : SameButFlags s s') : { s' with ovf := s.ovf }.visible = s.visible := by
  simp only [State.visible, h.cfg, h.beginAddr, h.endAddr, h.pos, h.bound, h.mem, h.port, h.resp]

/-- The fresh pending status of a command is hidden state. -/
theorem State.start_sameButFlags (s : State) : SameButFlags s s.start := ⟨rfl, rfl, rfl, rfl, rfl, rfl, rfl, rfl⟩

theorem SameButFlags.start {s s' : State} (h : SameButFlags s s') : SameButFlags s.start s'.start :=
  ⟨h.cfg, h.beginAddr, h.endAddr, h.pos, h.bound, h.mem, h.port, h.resp⟩

theorem SameButFlags.respond {s s' : State} (h : SameButFlags s s') (st : Status) (v : Word) :
    SameButFlags (s.respond st v) (s'.respond st v) :=
  ⟨h.cfg, h.beginAddr, h.endAddr, h.pos, h.bound, h.mem, h.port, rfl⟩

theorem SameButFlags.bindWindow {s s' : State} (h : SameButFlags s s') (a n : Nat) :
    SameButFlags (s.bindWindow a n) (s'.bindWindow a n) :=
  ⟨h.cfg, rfl, rfl, rfl, rfl, h.mem, h.port, h.resp⟩

theorem SameButFlags.appended {s s' t t' : State} {out : List Byte} {skipped : Bool} (h : SameButFlags s s')
    (ht : Appended s t out skipped) (ht' : Appended s' t' out skipped) : SameButFlags t t' where
  cfg := by rw [ht.cfg, ht'.cfg, h.cfg]
  beginAddr := by rw [ht.beginAddr, ht'.beginAddr, h.beginAddr]
  endAddr := by rw [ht.endAddr, ht'.endAddr, h.endAddr]
  pos := by rw [ht.pos, ht'.pos, h.pos]
  bound := by rw [ht.bound, ht'.bound, h.bound]
  mem := by rw [ht.mem, ht'.mem, h.mem, h.pos]
  port := by rw [ht.port, ht'.port, h.port]
  resp := by rw [ht.resp, ht'.resp, h.resp]

theorem SameButFlags.room {s s' : State} (h : SameButFlags s s') : s'.room = s.room := by
  rw [State.room, State.room, h.endAddr, h.pos]

theorem SameButFlags.fits {s s' : State} (h : SameButFlags s s') (n : Nat) : s'.fits n = s.fits n := by
  rw [State.fits, State.fits, h.endAddr, h.pos]

/-! ## Recipes -/

/-- What the recipe appends fits the window and depends neither on `OVF` nor on the hidden state. -/
def Steered (recipe : State → State) : Prop :=
  ∀ s s' : State, SameButFlags s s' → ∃ out skipped,
    Appended s (recipe s) out skipped ∧ Appended s' (recipe s') out skipped ∧ out.length ≤ s.room

theorem Steered.andThen {recipe after : State → State} (h : Steered recipe) (g : Steered after) :
    Steered fun s => after (recipe s) := by
  intro s s' hs
  obtain ⟨d, k, ha, ha', hd⟩ := h s s' hs
  obtain ⟨e, l, hb, hb', he⟩ := g _ _ (hs.appended ha ha')
  refine ⟨d ++ e, k || l, ha.trans hb, ha'.trans hb', ?_⟩
  rw [ha.room] at he
  rw [List.length_append]
  omega

/-- A recipe may take operands from the configuration. -/
theorem Steered.ofConfig {recipe : Config → State → State} (h : ∀ c, Steered (recipe c)) :
    Steered fun s => recipe s.cfg s := by
  intro s s' hs
  simpa only [hs.cfg] using h s.cfg s s' hs

theorem State.gwrite_steered (d : List Byte) : Steered (State.gwrite d) := by
  intro s s' hs
  have ha' := s'.gwrite_appended d
  rw [hs.fits] at ha'
  refine ⟨_, _, s.gwrite_appended d, ha', ?_⟩
  split_ifs with hfit
  · rw [State.fits_iff] at hfit
    rw [State.room]
    omega
  · exact Nat.zero_le _

theorem State.appendCrc_steered (d : List Byte) : Steered (State.appendCrc d) := by
  intro s s' hs
  have ha' := s'.appendCrc_appended d
  rw [hs.room, hs.cfg] at ha'
  refine ⟨_, _, s.appendCrc_appended d, ha', ?_⟩
  split_ifs <;> simp [*]

theorem synRecipe_steered : Steered synRecipe :=
  Steered.ofConfig fun c => State.gwrite_steered (synMarker c)

theorem frameRecipe_steered (type : Byte) (length : Half) (seq : Byte) : Steered (frameRecipe type length seq) := by
  intro s s' hs
  have ha' := frameRecipe_appended type length seq s'
  rw [hs.room, hs.cfg] at ha'
  refine ⟨_, _, frameRecipe_appended type length seq s, ha', ?_⟩
  split_ifs <;> simp [*]

theorem shortFrameRecipe_steered (type seq : Byte) : Steered (shortFrameRecipe type seq) :=
  (synRecipe_steered.andThen (frameRecipe_steered type 0 seq)).andThen (State.appendCrc_steered [])

theorem blockRecipe_steered (rqid : Half) (tc tid iid cid : Byte) (payload : List Byte) :
    Steered (blockRecipe rqid tc tid iid cid payload) := by
  intro s s' hs
  have ha' := blockRecipe_appended rqid tc tid iid cid payload s'
  rw [hs.room, hs.cfg] at ha'
  refine ⟨_, _, blockRecipe_appended rqid tc tid iid cid payload s, ha', ?_⟩
  split_ifs <;> simp only [List.length_append, blockBytes_length, crcBytes_length, List.length_nil] <;> omega

theorem cmdRecipe_steered (seq : Byte) (rqid : Half) (tc tid iid cid : Byte) (payload : List Byte) :
    Steered (cmdRecipe seq rqid tc tid iid cid payload) :=
  Steered.ofConfig fun c => (synRecipe_steered.andThen (frameRecipe_steered c.tDseq (cmdLength payload) seq)).andThen
    (blockRecipe_steered rqid tc tid iid cid payload)

/-! ## The two operations that can stop before their recipe -/

/-- `PUSH_BYTES` that answers a next state ran its guarded copy, or was refused as any push is (41_primitives.md R95, R96). -/
theorem exec_pushBytes_next {data : List Byte} {s t : State} (h : exec (.pushBytes data) s = .next t) :
    runPush (State.gwrite data) s = .next t := by
  simp only [exec, execPushBytes] at h
  split_ifs at h
  exact h

/-- `PUSH_CMD` answers `RANGE` under a binding where the payload is too long, else it is as any push
(43_builders.md R133). -/
theorem exec_pushCmd_cases {seq : Byte} {rqid : Half} {tc tid iid cid : Byte} {payload : List Byte} {s t : State}
    (h : exec (.pushCmd seq rqid tc tid iid cid payload) s = .next t) :
    (65535 < 8 + payload.length ∧ t = s.respond .range 0) ∨
    ((s.bound = false ∨ 8 + payload.length ≤ 65535) ∧
      runPush (cmdRecipe seq rqid tc tid iid cid payload) s = .next t) := by
  simp only [exec, execPushCmd, refuse] at h
  split_ifs at h with hlong
  · simp_all
  · simp only [Bool.and_eq_true, decide_eq_true_eq, not_and, Nat.not_lt] at hlong
    exact .inr ⟨by cases hb : s.bound <;> simp_all, h⟩

/-! ## The effect of an operation -/

/-- `t` is `s` after an operation other than `INIT` appended `out` at `POS` and answered; `skipped` says whether it ended
`CAPACITY`, which only a bound engine can. -/
structure Answered (s t : State) (out : List Byte) (skipped : Bool) : Prop where
  cfg : t.cfg = s.cfg
  beginAddr : t.beginAddr = s.beginAddr
  endAddr : t.endAddr = s.endAddr
  bound : t.bound = s.bound
  port : t.port = s.port
  pos : t.pos = s.pos + out.length
  mem : t.mem = Memory.writeSeq s.mem s.pos out
  ovf : t.ovf = (s.ovf || skipped)
  status : t.status = some .capacity ↔ skipped = true
  room : out.length ≤ s.room
  bound_of_skipped : skipped = true → s.bound = true

/-- An answer other than `CAPACITY` with nothing but hidden state changed before it. -/
theorem SameButFlags.respond_answered {s u : State} (h : SameButFlags s u) (hovf : u.ovf = s.ovf) {st : Status} (v : Word)
    (hst : st ≠ .capacity) : Answered s (u.respond st v) [] false where
  cfg := h.cfg
  beginAddr := h.beginAddr
  endAddr := h.endAddr
  bound := h.bound
  port := h.port
  pos := h.pos
  mem := h.mem
  ovf := by simp [hovf]
  status := by simpa [State.status] using hst
  room := Nat.zero_le _
  bound_of_skipped := by simp

theorem State.refused_answered (s : State) {st : Status} (hst : st ≠ .capacity) :
    Answered s (s.respond st 0) [] false :=
  (SameButFlags.refl s).respond_answered rfl 0 hst

theorem Appended.answered {s u : State} {out : List Byte} {skipped : Bool} (h : Appended s.start u out skipped)
    (hroom : out.length ≤ s.room) (hb : s.bound = true) : Answered s u.finish out skipped where
  cfg := h.cfg
  beginAddr := h.beginAddr
  endAddr := h.endAddr
  bound := h.bound
  port := h.port
  pos := h.pos
  mem := h.mem
  ovf := h.ovf
  status := by cases skipped <;> simp [State.status, h.pending]
  room := hroom
  bound_of_skipped _ := hb

theorem Steered.answered {recipe : State → State} {s t : State} (hr : Steered recipe) (h : runPush recipe s = .next t) :
    ∃ out skipped, Answered s t out skipped := by
  obtain ⟨-, rfl⟩ | ⟨hb, rfl⟩ := runPush_cases h
  · exact ⟨[], false, s.refused_answered (by decide)⟩
  · obtain ⟨out, skipped, ha, -, hroom⟩ := hr s.start s.start (.refl _)
    exact ⟨out, skipped, ha.answered hroom hb⟩

/-- Every operation other than `INIT` that answers a next state appends bytes that fit and answers, nothing else. -/
theorem exec_answered {i : Instr} {s t : State} (hi : isInit i = false) (h : exec i s = .next t) :
    ∃ out skipped, Answered s t out skipped := by
  cases i with
  | init storage capacity => cases hi
  | bytesUsed =>
    obtain ⟨-, rfl⟩ | ⟨-, rfl⟩ := exec_bytesUsed_cases h
    · exact ⟨[], false, s.refused_answered (by decide)⟩
    · exact ⟨[], false, s.start_sameButFlags.respond_answered rfl _ (by decide)⟩
  | pushU16 value => exact (State.gwrite_steered _).answered h
  | pushBytes data => exact (State.gwrite_steered data).answered (exec_pushBytes_next h)
  | pushCrc data => exact (State.appendCrc_steered data).answered h
  | pushSyn => exact synRecipe_steered.answered h
  | pushFrame type length seq => exact (frameRecipe_steered type length seq).answered h
  | pushAck seq => exact (shortFrameRecipe_steered _ seq).answered h
  | pushNak => exact (shortFrameRecipe_steered _ 0).answered h
  | pushCmd seq rqid tc tid iid cid payload =>
    obtain ⟨-, rfl⟩ | ⟨-, h⟩ := exec_pushCmd_cases h
    · exact ⟨[], false, s.refused_answered (by decide)⟩
    · exact (cmdRecipe_steered seq rqid tc tid iid cid payload).answered h

/-- Two operations answer the same: next states that differ at most in `OVF` and hidden state, or one fault. -/
inductive SameAnswer : Host.Outcome State Fault Refusal → Host.Outcome State Fault Refusal → Prop where
  | next {t t' : State} (h : SameButFlags t t') : SameAnswer (.next t) (.next t')
  | fault (f : Fault) : SameAnswer (.fault f) (.fault f)

theorem SameAnswer.exists_next {t : State} {o : Host.Outcome State Fault Refusal} (h : SameAnswer (.next t) o) :
    ∃ t', o = .next t' ∧ SameButFlags t t' := by
  cases h with
  | next h => exact ⟨_, rfl, h⟩

theorem SameAnswer.eq_fault {f : Fault} {o : Host.Outcome State Fault Refusal} (h : SameAnswer (.fault f) o) :
    o = .fault f := by
  cases h with
  | fault => rfl

theorem SameButFlags.refuse {s s' : State} (hs : SameButFlags s s') (st : Status) :
    SameAnswer (refuse st s) (refuse st s') :=
  .next (hs.respond st 0)

theorem Steered.sameAnswer {recipe : State → State} (hr : Steered recipe) {s s' : State} (hs : SameButFlags s s') :
    SameAnswer (runPush recipe s) (runPush recipe s') := by
  rw [runPush, runPush, hs.bound]
  split_ifs with hb
  · obtain ⟨out, skipped, ha, ha', -⟩ := hr s.start s'.start hs.start
    have hp : (recipe s'.start).scratch.pending = (recipe s.start).scratch.pending := by rw [ha.pending, ha'.pending]; rfl
    refine .next ?_
    rw [State.finish, State.finish, hp]
    exact (hs.start.appended ha ha').respond _ 0
  · exact hs.refuse .unbound

/-- No operation is steered by `OVF` or by hidden state left before it (10_state.md R21, R25). -/
theorem exec_sameAnswer (i : Instr) {s s' : State} (hs : SameButFlags s s') : SameAnswer (exec i s) (exec i s') := by
  cases i with
  | init storage capacity =>
    simp only [exec, execInit, hs.cfg]
    split_ifs
    · exact hs.refuse .range
    · exact .next ((hs.start.bindWindow _ _).respond .ok 0)
  | bytesUsed =>
    simp only [exec, execBytesUsed, hs.bound, State.bytesUsed, hs.pos, hs.beginAddr]
    split_ifs
    · exact .next (hs.start.respond .ok _)
    · exact hs.refuse .unbound
  | pushU16 value => exact (State.gwrite_steered _).sameAnswer hs
  | pushBytes data =>
    simp only [exec, execPushBytes, hs.bound, hs.cfg, hs.fits]
    split_ifs
    · exact .fault _
    · exact (State.gwrite_steered data).sameAnswer hs
  | pushCrc data => exact (State.appendCrc_steered data).sameAnswer hs
  | pushSyn => exact synRecipe_steered.sameAnswer hs
  | pushFrame type length seq => exact (frameRecipe_steered type length seq).sameAnswer hs
  | pushAck seq =>
    simp only [exec, execPushAck, hs.cfg]
    exact (shortFrameRecipe_steered _ seq).sameAnswer hs
  | pushNak =>
    simp only [exec, execPushNak, hs.cfg]
    exact (shortFrameRecipe_steered _ 0).sameAnswer hs
  | pushCmd seq rqid tc tid iid cid payload =>
    simp only [exec, execPushCmd, hs.bound]
    split_ifs
    · exact hs.refuse .range
    · exact (cmdRecipe_steered seq rqid tc tid iid cid payload).sameAnswer hs

/-- While `BOUND = 0` every operation but `INIT` is refused (60_exceptions.md R156). -/
theorem exec_unbound {i : Instr} {s : State} (hi : isInit i = false) (hb : s.bound = false) :
    exec i s = .next (s.respond .unbound 0) := by
  cases i with
  | init storage capacity => cases hi
  | bytesUsed => simp [exec, execBytesUsed, refuse, hb]
  | pushBytes data => simpa [exec, execPushBytes, hb] using runPush_unbound _ hb
  | pushCmd seq rqid tc tid iid cid payload => simpa [exec, execPushCmd, hb] using runPush_unbound _ hb
  | pushU16 | pushCrc | pushSyn | pushFrame | pushAck | pushNak => exact runPush_unbound _ hb

end Sys2Proof.Machine
end

section
/-! What one step does, and the invariant (00_scope.md R11; 10_state.md R13 to R18). -/

namespace Sys2Proof.Machine

/-- A step is idle, or takes a move off the queue and: runs an operation, answers an illegal word, resets the engine, or
writes one existing byte of memory (70_reset_and_hazards.md R187). -/
theorem step_cases {s t : State} (h : step s = .next t) :
    t = s ∨ ∃ rest, (∃ i, exec i { s with port := rest } = .next t) ∨
      t = { s with port := rest }.respond .illegal 0 ∨ t = { s with port := rest }.resetEngine ∨
      ∃ a b, a < s.cfg.addrTop ∧ t = { s with port := rest, mem := Memory.write s.mem a b } := by
  simp only [step, serve] at h
  split at h
  next => cases h; exact .inl rfl
  next m rest _ =>
    refine .inr ⟨rest, ?_⟩
    cases m with
    | command c =>
      simp only [meetMove, acceptCommand] at h
      split at h
      next i _ => exact .inl ⟨i, h⟩
      next => cases h; exact .inr (.inl rfl)
      next => cases h
    | reset => cases h; exact .inr (.inr (.inl rfl))
    | write a b =>
      simp only [meetMove, hostWrite] at h
      split_ifs at h with ha
      cases h
      exact .inr (.inr (.inr ⟨a, b, ha, rfl⟩))

theorem exec_keeps_cfg {i : Instr} {s t : State} (h : exec i s = .next t) : t.cfg = s.cfg := by
  cases i with
  | init storage capacity => obtain ⟨-, rfl⟩ | ⟨-, rfl⟩ := exec_init_cases h <;> rfl
  | _ =>
    obtain ⟨out, skipped, ha⟩ := exec_answered rfl h
    exact ha.cfg

/-- Settles O14: the case split of a step; an operation keeps the configuration, and so do the host's other moves. -/
theorem stepKeepsConfiguration : Obligations.StepKeepsConfiguration := by
  intro s t h
  obtain rfl | ⟨rest, ⟨i, hi⟩ | rfl | rfl | ⟨a, b, -, rfl⟩⟩ := step_cases h
  · rfl
  · exact (exec_keeps_cfg hi :)
  · rfl
  · rfl
  · rfl

/-- Neither the queue nor the response is part of the invariant. -/
theorem State.Inv.withPort {s : State} (h : s.Inv) (rest : List HostMove) : ({ s with port := rest } : State).Inv :=
  { h with }

theorem State.Inv.respond {s : State} (h : s.Inv) (st : Status) (v : Word) : (s.respond st v).Inv :=
  { h with }

theorem State.Inv.write {s : State} (h : s.Inv) {a : Nat} (ha : a < s.cfg.addrTop) (b : Byte) :
    ({ s with mem := Memory.write s.mem a b } : State).Inv :=
  { h with
    mem_wf := Memory.write_wf s.mem a b h.mem_wf
    mem_below := Memory.write_below s.mem a b ha h.mem_below }

/-- Reset leaves the configuration and memory, and clears the binding. -/
theorem State.Inv.resetEngine {s : State} (h : s.Inv) : s.resetEngine.Inv where
  cfg_wf := h.cfg_wf
  mem_wf := h.mem_wf
  mem_below := h.mem_below
  begin_lt := Nat.two_pow_pos _
  end_le := Nat.zero_le _
  pos_le := Nat.zero_le _
  begin_le_pos := by simp
  pos_le_end := by simp
  window_lt := by simp
  ovf_bound := by simp

/-- A new binding over a window inside the address space (40_cursor.md R83). -/
theorem State.Inv.bindWindow {s : State} (h : s.Inv) {a n : Nat} (ha : a < s.cfg.addrTop) (hn : n < s.cfg.addrTop)
    (htop : a + n ≤ s.cfg.addrTop) : (s.start.bindWindow a n).Inv where
  cfg_wf := h.cfg_wf
  mem_wf := h.mem_wf
  mem_below := h.mem_below
  begin_lt := ha
  end_le := htop
  pos_le := ha.le
  begin_le_pos _ := Nat.le_refl a
  pos_le_end _ := Nat.le_add_right a n
  window_lt _ := by simpa using hn
  ovf_bound := by simp

/-- Bytes that fit the window keep the invariant: they end at or below `END`, or there are none. -/
theorem Answered.inv {s t : State} {out : List Byte} {skipped : Bool} (h : Answered s t out skipped) (hs : s.Inv) :
    t.Inv := by
  have hroom := h.room
  have hend := hs.end_le
  have hpos := hs.pos_le
  rw [State.room] at hroom
  have htop : s.pos + out.length ≤ s.cfg.addrTop := by omega
  constructor <;> simp only [h.cfg, h.beginAddr, h.endAddr, h.bound, h.pos, h.mem, h.ovf]
  case cfg_wf => exact hs.cfg_wf
  case mem_wf => exact Memory.writeSeq_wf out s.mem s.pos hs.mem_wf
  case mem_below => exact Memory.writeSeq_below out s.mem s.pos htop hs.mem_below
  case begin_lt => exact hs.begin_lt
  case end_le => exact hend
  case pos_le => exact htop
  case begin_le_pos => exact fun hb => Nat.le_add_right_of_le (hs.begin_le_pos hb)
  case pos_le_end =>
    intro hb
    have := hs.pos_le_end hb
    omega
  case window_lt => exact hs.window_lt
  case ovf_bound =>
    intro hovf
    exact (Bool.or_eq_true_iff.mp hovf).elim hs.ovf_bound h.bound_of_skipped

theorem exec_keeps_inv {i : Instr} {s t : State} (hs : s.Inv) (h : exec i s = .next t) : t.Inv := by
  cases i with
  | init storage capacity =>
    obtain ⟨-, rfl⟩ | ⟨hin, rfl⟩ := exec_init_cases h
    · exact hs.respond .range 0
    · obtain ⟨ha, hn, htop⟩ := (initOutOfRange_eq_false_iff ..).mp hin
      exact (hs.bindWindow ha hn htop).respond .ok 0
  | _ =>
    obtain ⟨out, skipped, ha⟩ := exec_answered rfl h
    exact ha.inv hs

/-- Settles O13: the case split of a step, with one lemma for each of its cases. -/
theorem stepKeepsInvariant : Obligations.StepKeepsInvariant := by
  intro s t hs h
  obtain rfl | ⟨rest, ⟨i, hi⟩ | rfl | rfl | ⟨a, b, ha, rfl⟩⟩ := step_cases h
  · exact hs
  · exact exec_keeps_inv (hs.withPort rest) hi
  · exact (hs.withPort rest).respond .illegal 0
  · exact (hs.withPort rest).resetEngine
  · exact (hs.withPort rest).write ha b

/-- Settles O12: nothing is bound at reset, and the default address width is 32. -/
theorem resetMeetsInvariant : Obligations.ResetMeetsInvariant where
  cfg_wf := by decide
  mem_wf := Memory.reset_wf
  mem_below := rfl
  begin_lt := Nat.two_pow_pos _
  end_le := Nat.zero_le _
  pos_le := Nat.zero_le _
  begin_le_pos h := nomatch h
  pos_le_end h := nomatch h
  window_lt h := nomatch h
  ovf_bound h := nomatch h

/-- Settles O11: reset leaves the engine unbound, and `INIT` answers `OK` or `RANGE`. -/
theorem resetAcceptsOnlyInit : Obligations.ResetAcceptsOnlyInit := by
  refine ⟨rfl, rfl, rfl, fun i => ⟨fun hi => exec_unbound hi rfl, fun hi => ?_⟩⟩
  obtain ⟨t, ht⟩ := exec_next_of_guard i State.reset rfl
  refine ⟨t, ht, ?_⟩
  cases i with
  | init storage capacity => obtain ⟨-, rfl⟩ | ⟨-, rfl⟩ := exec_init_cases ht <;> simp [State.status]
  | _ => cases hi

end Sys2Proof.Machine
end

section
/-! What the operations do to the cursor registers, `OVF` and memory (10_state.md R16, R20, R21, R23), and what they do not
depend on (R21, R25). -/

namespace Sys2Proof.Machine

/-- Settles O15: every operation but `INIT` appends; `INIT` is refused, or binds with `POS` at `BEGIN`. -/
theorem onlyInitMovesTheWindow : Obligations.OnlyInitMovesTheWindow := by
  intro i s t h
  refine ⟨fun hi => ?_, fun hi hok => ?_, fun hi hok => ?_⟩
  · obtain ⟨out, skipped, ha⟩ := exec_answered hi h
    exact ⟨ha.beginAddr, ha.endAddr, ha.bound, by rw [ha.pos]; exact Nat.le_add_right _ _⟩
  all_goals
    cases i with
    | init storage capacity => obtain ⟨-, rfl⟩ | ⟨-, rfl⟩ := exec_init_cases h <;> simp_all [State.status]
    | _ => cases hi

/-- Settles O16: every operation but `INIT` adds to `OVF` exactly whether it skipped a write. -/
theorem overflowFlagIsSticky : Obligations.OverflowFlagIsSticky := by
  intro i s t h
  refine ⟨fun hi => ?_, fun hi => ?_⟩
  · obtain ⟨out, skipped, ha⟩ := exec_answered hi h
    rw [ha.ovf, ha.status, Bool.or_eq_true]
  · cases i with
    | init storage capacity => obtain ⟨-, rfl⟩ | ⟨-, rfl⟩ := exec_init_cases h <;> simp [State.status]
    | _ => cases hi

/-- Settles O17: the two states differ in `OVF` alone, so the two answers differ at most in `OVF` and hidden state. -/
theorem overflowFlagSteersNothing : Obligations.OverflowFlagSteersNothing := by
  intro i s b
  have hsame := exec_sameAnswer i (s := s) (s' := { s with ovf := b }) ⟨rfl, rfl, rfl, rfl, rfl, rfl, rfl, rfl⟩
  refine ⟨fun t ht => ?_, fun f hf => ?_⟩
  · obtain ⟨t', ht', hst⟩ := (ht ▸ hsame).exists_next
    exact ⟨t', ht', hst.visible_eq⟩
  · exact (hf ▸ hsame).eq_fault

/-- From one value of `OVF`, two runs that end with the same status end with the same `OVF`. -/
theorem exec_ovf_eq {i : Instr} {s s' t t' : State} (h : exec i s = .next t) (h' : exec i s' = .next t')
    (hs : s'.ovf = s.ovf) (hst : t'.status = t.status) : t'.ovf = t.ovf := by
  obtain ⟨hother, hinit⟩ := overflowFlagIsSticky i s t h
  obtain ⟨hother', hinit'⟩ := overflowFlagIsSticky i s' t' h'
  rw [hs, hst] at hother' hinit'
  cases hi : isInit i
  · exact Bool.eq_iff_iff.mpr ((hother' hi).trans (hother hi).symm)
  · by_cases hok : t.status = some .ok
    · rw [(hinit hi).1 hok, (hinit' hi).1 hok]
    · rw [(hinit hi).2 hok, (hinit' hi).2 hok]

/-- Settles O18: the two answers agree up to `OVF`, and `OVF` follows from its old value and the status. -/
theorem hiddenStateIsNotObservable : Obligations.HiddenStateIsNotObservable := by
  intro i s k
  have hsame := exec_sameAnswer i (s := s) (s' := { s with scratch := k }) ⟨rfl, rfl, rfl, rfl, rfl, rfl, rfl, rfl⟩
  refine ⟨fun t ht => ?_, fun f hf => ?_⟩
  · obtain ⟨t', ht', hst⟩ := (ht ▸ hsame).exists_next
    have hovf : t'.ovf = t.ovf := exec_ovf_eq ht ht' rfl (congrArg (Option.map Response.status) hst.resp)
    refine ⟨t', ht', ?_⟩
    rw [← hst.visible_eq, ← hovf]
  · exact (hf ▸ hsame).eq_fault

/-- Settles O20: what is appended at `POS` ends at or below `END`. -/
theorem commandsWriteOnlyInsideTheWindow : Obligations.CommandsWriteOnlyInsideTheWindow := by
  intro i s t a h houtside
  cases i with
  | init storage capacity => obtain ⟨-, rfl⟩ | ⟨-, rfl⟩ := exec_init_cases h <;> rfl
  | _ =>
    obtain ⟨out, skipped, ha⟩ := exec_answered rfl h
    have hroom := ha.room
    rw [State.room] at hroom
    rw [ha.mem, Memory.read_writeSeq_outside out s.mem s.pos a (by omega)]

end Sys2Proof.Machine
end

section
/-! The frame of the CRC unit and the block latch (10_state.md R25; 42_crc16.md R112; 43_builders.md R121). -/

namespace Sys2Proof.Machine

@[simp] theorem State.gwrite_crcAcc (d : List Byte) (s : State) : (s.gwrite d).scratch.crcAcc = s.scratch.crcAcc := by
  unfold State.gwrite; split <;> rfl

@[simp] theorem State.gwrite_blk (d : List Byte) (s : State) : (s.gwrite d).scratch.blk = s.scratch.blk := by
  unfold State.gwrite; split <;> rfl

@[simp] theorem State.appendCrc_crcAcc (d : List Byte) (s : State) :
    (s.appendCrc d).scratch.crcAcc = crcAccumulate s.cfg.crc d := by
  simp [State.appendCrc]

@[simp] theorem State.appendCrc_blk (d : List Byte) (s : State) : (s.appendCrc d).scratch.blk = s.scratch.blk := by
  simp [State.appendCrc]

theorem frameRecipe_blk (type : Byte) (length : Half) (seq : Byte) (s : State) :
    (frameRecipe type length seq s).scratch.blk = s.pos := by
  unfold frameRecipe; split <;> simp [State.closeBlock]

/-- Where the header does not fit its checksum is skipped with it (43_builders.md R125). -/
theorem frameRecipe_crcAcc_of_not_fits (type : Byte) (length : Half) (seq : Byte) {s : State} (h : s.endAddr < s.pos + 4) :
    (frameRecipe type length seq s).scratch.crcAcc = s.scratch.crcAcc := by
  have hfits : ¬ s.fits 4 = true := by rw [State.fits_iff]; omega
  simp [frameRecipe, hfits]

/-- The last checksum of a frame without payload is that of nothing (43_builders.md R127). -/
theorem shortFrameRecipe_crcAcc (type seq : Byte) (s : State) :
    (shortFrameRecipe type seq s).scratch.crcAcc = crcAccumulate s.cfg.crc [] := by
  simp only [shortFrameRecipe, emptyCrcRecipe, State.appendCrc_crcAcc, (frameRecipe_appended ..).cfg,
    (synRecipe_appended s).cfg]

/-- A guarded write computes no checksum and begins no block. -/
theorem runPush_gwrite_crcUnit {d : List Byte} {s t : State} (h : runPush (State.gwrite d) s = .next t) :
    t.scratch.crcAcc = s.scratch.crcAcc ∧ t.scratch.blk = s.scratch.blk := by
  obtain ⟨-, rfl⟩ | ⟨-, rfl⟩ := runPush_cases h <;> simp

/-- A frame without payload leaves the checksum of nothing, or is refused and leaves all hidden state. -/
theorem runPush_shortFrame_crcUnit {type seq : Byte} {s t : State} (h : runPush (shortFrameRecipe type seq) s = .next t) :
    (s.bound = true → t.scratch.crcAcc = crcAccumulate s.cfg.crc []) ∧ (s.bound = false → t.scratch = s.scratch) := by
  obtain ⟨hb, rfl⟩ | ⟨hb, rfl⟩ := runPush_cases h
  · exact ⟨fun hb' => absurd hb' (by simp [hb]), fun _ => rfl⟩
  · exact ⟨fun _ => shortFrameRecipe_crcAcc type seq s.start, fun hb' => absurd hb' (by simp [hb])⟩

/-- Settles O23, operation by operation. -/
theorem crcUnitFrame : Obligations.CrcUnitFrame := by
  intro i s t h
  cases i with
  | init storage capacity => obtain ⟨-, rfl⟩ | ⟨-, rfl⟩ := exec_init_cases h <;> exact ⟨rfl, rfl⟩
  | bytesUsed => obtain ⟨-, rfl⟩ | ⟨-, rfl⟩ := exec_bytesUsed_cases h <;> exact ⟨rfl, rfl⟩
  | pushU16 value => exact runPush_gwrite_crcUnit h
  | pushBytes data => exact runPush_gwrite_crcUnit (exec_pushBytes_next h)
  | pushSyn => obtain ⟨-, rfl⟩ | ⟨-, rfl⟩ := runPush_cases h <;> simp [synRecipe]
  | pushCrc data => obtain ⟨hb, rfl⟩ | ⟨hb, rfl⟩ := runPush_cases h <;> simp [hb]
  | pushFrame type length seq =>
    obtain ⟨hb, rfl⟩ | ⟨hb, rfl⟩ := runPush_cases h
    · simp [hb]
    · refine ⟨by simp [hb, frameRecipe_blk], fun hskip => ?_⟩
      have hfull : s.start.endAddr < s.start.pos + 4 := by simpa [hb] using hskip
      exact frameRecipe_crcAcc_of_not_fits type length seq hfull
  | pushAck seq => exact runPush_shortFrame_crcUnit h
  | pushNak => exact runPush_shortFrame_crcUnit h
  | pushCmd seq rqid tc tid iid cid payload =>
    intro hrefused
    obtain ⟨-, rfl⟩ | ⟨hruns, h⟩ := exec_pushCmd_cases h
    · rfl
    · obtain ⟨-, rfl⟩ | ⟨hb, rfl⟩ := runPush_cases h
      · rfl
      · simp only [hb, Bool.true_eq_false, false_or] at hrefused hruns
        omega

end Sys2Proof.Machine
end

section
/-! The frame of the pushes: `POS` advances by at most the byte count of the operation, which a skipped write falls short of
(20_memory.md R35; 41_primitives.md R100). -/

namespace Sys2Proof.Machine

/-- A bound on the bytes a recipe appends is a bound on how far it moves `POS`. -/
theorem Appended.pos_le {s t : State} {out : List Byte} {skipped : Bool} {n : Nat} (h : Appended s t out skipped)
    (hout : out.length ≤ n) : t.pos ≤ s.pos + n := by
  rw [h.pos]
  exact Nat.add_le_add_left hout _

theorem State.gwrite_pos_le (d : List Byte) (s : State) : (s.gwrite d).pos ≤ s.pos + d.length :=
  (s.gwrite_appended d).pos_le (by split_ifs <;> simp)

theorem State.appendCrc_pos_le (d : List Byte) (s : State) : (s.appendCrc d).pos ≤ s.pos + 2 :=
  (s.appendCrc_appended d).pos_le (by split_ifs <;> simp)

theorem synRecipe_pos_le (s : State) : (synRecipe s).pos ≤ s.pos + 2 := s.gwrite_pos_le (synMarker s.cfg)

theorem frameRecipe_pos_le (type : Byte) (length : Half) (seq : Byte) (s : State) :
    (frameRecipe type length seq s).pos ≤ s.pos + 6 :=
  (frameRecipe_appended type length seq s).pos_le (by split_ifs <;> simp)

/-- SYN, header with its checksum, trailing checksum. -/
theorem shortFrameRecipe_pos_le (type seq : Byte) (s : State) : (shortFrameRecipe type seq s).pos ≤ s.pos + 10 :=
  calc (shortFrameRecipe type seq s).pos
    _ ≤ (frameRecipe type 0 seq (synRecipe s)).pos + 2 := State.appendCrc_pos_le [] _
    _ ≤ (synRecipe s).pos + 6 + 2 := Nat.add_le_add_right (frameRecipe_pos_le type 0 seq _) 2
    _ ≤ s.pos + 2 + 6 + 2 := Nat.add_le_add_right (synRecipe_pos_le s) 8

theorem blockRecipe_pos_le (rqid : Half) (tc tid iid cid : Byte) (payload : List Byte) (s : State) :
    (blockRecipe rqid tc tid iid cid payload s).pos ≤ s.pos + (10 + payload.length) := by
  refine (blockRecipe_appended rqid tc tid iid cid payload s).pos_le ?_
  split_ifs <;> simp only [List.length_append, blockBytes_length, crcBytes_length, List.length_nil] <;> omega

/-- SYN, header with its checksum, block with its own. -/
theorem cmdRecipe_pos_le (seq : Byte) (rqid : Half) (tc tid iid cid : Byte) (payload : List Byte) (s : State) :
    (cmdRecipe seq rqid tc tid iid cid payload s).pos ≤ s.pos + (18 + payload.length) := by
  have hsyn := synRecipe_pos_le s
  have hframe := frameRecipe_pos_le s.cfg.tDseq (cmdLength payload) seq (synRecipe s)
  have hblock := blockRecipe_pos_le rqid tc tid iid cid payload
    (frameRecipe s.cfg.tDseq (cmdLength payload) seq (synRecipe s))
  rw [cmdRecipe]
  omega

/-- A refused push leaves `POS`; one that runs moves it as far as its recipe does. -/
theorem runPush_pos_le {recipe : State → State} {n : Nat} (hr : ∀ u, (recipe u).pos ≤ u.pos + n) {s t : State}
    (h : runPush recipe s = .next t) : t.pos ≤ s.pos + n := by
  obtain ⟨-, rfl⟩ | ⟨-, rfl⟩ := runPush_cases h
  · exact Nat.le_add_right _ _
  · exact hr s.start

theorem isInit_eq_false_of_isPush {i : Instr} (hi : isPush i = true) : isInit i = false := by
  cases i with
  | init => cases hi
  | _ => rfl

/-- A push advances `POS` by at most its count of 20_memory.md R35, operation by operation. -/
theorem exec_push_pos_le {i : Instr} {s t : State} (hi : isPush i = true) (h : exec i s = .next t) :
    t.pos ≤ s.pos + byteCount i := by
  cases i with
  | init storage capacity => cases hi
  | bytesUsed => cases hi
  | pushU16 value => exact runPush_pos_le (State.gwrite_pos_le (le16 value)) h
  | pushBytes data => exact runPush_pos_le (State.gwrite_pos_le data) (exec_pushBytes_next h)
  | pushCrc data => exact runPush_pos_le (State.appendCrc_pos_le data) h
  | pushSyn => exact runPush_pos_le synRecipe_pos_le h
  | pushFrame type length seq => exact runPush_pos_le (frameRecipe_pos_le type length seq) h
  | pushAck seq => exact runPush_pos_le (shortFrameRecipe_pos_le s.cfg.tAck seq) h
  | pushNak => exact runPush_pos_le (shortFrameRecipe_pos_le s.cfg.tNak 0) h
  | pushCmd seq rqid tc tid iid cid payload =>
    obtain ⟨-, rfl⟩ | ⟨-, h⟩ := exec_pushCmd_cases h
    · exact Nat.le_add_right _ _
    · exact runPush_pos_le (cmdRecipe_pos_le seq rqid tc tid iid cid payload) h

/-- Settles O21: a push appends at `POS`, and what it appends is at most its byte count. -/
theorem pushesLeaveTheRestUnchanged : Obligations.PushesLeaveTheRestUnchanged := by
  intro i s t hi h
  obtain ⟨out, skipped, ha⟩ := exec_answered (isInit_eq_false_of_isPush hi) h
  have hpos := ha.pos
  refine ⟨ha.cfg, ha.beginAddr, ha.endAddr, ha.bound, ha.port, by omega, exec_push_pos_le hi h, fun a houtside => ?_⟩
  rw [ha.mem, Memory.read_writeSeq_outside out s.mem s.pos a (by omega)]

end Sys2Proof.Machine
end

section
/-! Facts about the decoder: which words are legal, and what it answers, case by case (30_encoding.md R61, R62, R71, R72). -/

namespace Sys2Proof

/-! ## Legal words -/

/-- The undefined opcodes (30_encoding.md R72). -/
theorem formatOf_eq_none_iff (op : Byte) : formatOf op = none ↔ op = 0x00 ∨ 0x0B ≤ op.toNat := by
  have hzero : op = 0x00 ↔ op.toNat = 0 := BitVec.toNat_inj.symm
  rw [hzero]
  unfold formatOf
  split <;> simp only [reduceCtorEq, true_iff, false_iff, imp_false] at * <;> omega

theorem legalFormat_eq_some_iff {w : CmdWord} {fmt : Format} :
    legalFormat w = some fmt ↔ formatOf (opcode w) = some fmt ∧ w >>> fmt.reservedFrom = 0 := by
  unfold legalFormat
  cases formatOf (opcode w) with
  | none => simp
  | some fmt' =>
    simp only [Option.ite_none_right_eq_some, Option.some.injEq]
    constructor
    · rintro ⟨h, rfl⟩; exact ⟨rfl, h⟩
    · rintro ⟨rfl, h⟩; exact ⟨h, rfl⟩

/-- A reserved bit is set. -/
theorem shiftRight_ne_zero_iff (w : CmdWord) (k : Nat) :
    w >>> k ≠ 0 ↔ ∃ i, k ≤ i ∧ i < 96 ∧ w.getLsbD i = true := by
  rw [Ne, shiftRight_eq_zero_iff]
  push Not
  refine exists_congr fun i => and_congr_right fun _ => ?_
  rw [ne_eq, Bool.not_eq_false, iff_and_self]
  exact BitVec.lt_of_getLsbD

/-- The grounds for an illegal word: an undefined opcode, or a reserved bit that is set (30_encoding.md R72). -/
theorem legalFormat_eq_none_iff {w : CmdWord} :
    legalFormat w = none ↔ opcode w = 0x00 ∨ 0x0B ≤ (opcode w).toNat ∨
      ∃ fmt k, formatOf (opcode w) = some fmt ∧ fmt.reservedFrom ≤ k ∧ k < 96 ∧ w.getLsbD k = true := by
  have hreserved : legalFormat w = none ↔
      formatOf (opcode w) = none ∨ ∃ fmt, formatOf (opcode w) = some fmt ∧ w >>> fmt.reservedFrom ≠ 0 := by
    unfold legalFormat
    cases formatOf (opcode w) <;> simp
  simp only [hreserved, formatOf_eq_none_iff, shiftRight_ne_zero_iff, exists_and_left, or_assoc]

/-- The bits of a format's mask: the opcode field and the reserved bits. -/
theorem Format.getLsbD_mask (fmt : Format) {i : Nat} (hi : i < 96) :
    fmt.mask.getLsbD i = (decide (i < 8) || decide (fmt.reservedFrom ≤ i)) := by
  revert i
  cases fmt <;> decide

theorem Format.opcode_below_reserved (fmt : Format) : 8 ≤ fmt.reservedFrom := by
  cases fmt <;> decide

/-- The mask leaves exactly the opcode iff every reserved bit is zero. -/
theorem and_mask_eq_opcode_iff (w : CmdWord) (fmt : Format) :
    w &&& fmt.mask = (opcode w).setWidth 96 ↔ w >>> fmt.reservedFrom = 0 := by
  have hbelow := fmt.opcode_below_reserved
  rw [shiftRight_eq_zero_iff, BitVec.eq_of_getLsbD_eq_iff]
  have hbit : ∀ i, i < 96 → ((w &&& fmt.mask).getLsbD i = ((opcode w).setWidth 96).getLsbD i ↔
      (fmt.reservedFrom ≤ i → w.getLsbD i = false)) := by
    intro i hi
    rw [BitVec.getLsbD_and, fmt.getLsbD_mask hi, BitVec.getLsbD_setWidth, opcode, getLsbD_field, Nat.zero_add]
    by_cases h8 : i < 8
    · simp [hi, h8, show ¬ fmt.reservedFrom ≤ i by omega]
    · by_cases hr : fmt.reservedFrom ≤ i <;> simp [h8, hr]
  constructor
  · intro h i hr
    by_cases hi : i < 96
    · exact (hbit i hi).mp (h i hi) hr
    · exact BitVec.getLsbD_of_ge w i (by omega)
  · exact fun h i hi => (hbit i hi).mpr (h i)

/-- Settles O4: a legal word has its reserved bits zero, and that is what the mask tests. -/
theorem legalWordIffMaskLeavesOpcode : Obligations.LegalWordIffMaskLeavesOpcode := by
  intro w fmt
  rw [legalFormat_eq_some_iff, and_mask_eq_opcode_iff]

/-- How many stream bytes a legal word of the format calls for (30_encoding.md R62). -/
def Format.streamLen (w : CmdWord) : Format → Nat
  | .d => (field w 8 16).toNat
  | .c => (field w 64 16).toNat
  | _ => 0

theorem streamLen_of_legalFormat {w : CmdWord} {fmt : Format} (h : legalFormat w = some fmt) :
    streamLen w = fmt.streamLen w := by
  unfold streamLen
  rw [h]
  cases fmt <;> rfl

/-! ## What the decoder answers -/

theorem cutFields_eq_none_iff (w : CmdWord) (stream : List Byte) :
    cutFields w stream = none ↔ formatOf (opcode w) = none := by
  unfold cutFields formatOf
  split <;> simp

theorem decode_eq_illegal_iff {maxLen : Nat} {c : Command} :
    decode maxLen c = .illegal ↔ legalFormat c.word = none := by
  unfold decode
  split
  next h => simp [h]
  next fmt h =>
    have hcut : cutFields c.word c.stream ≠ none := by
      rw [Ne, cutFields_eq_none_iff, (legalFormat_eq_some_iff.mp h).1]
      exact Option.some_ne_none fmt
    split_ifs
    · split
      next => simp [h]
      next hnone => exact absurd hnone hcut
    · simp [h]

theorem decode_eq_op_iff {maxLen : Nat} {c : Command} {i : Instr} :
    decode maxLen c = .op i ↔
      (∃ fmt, legalFormat c.word = some fmt) ∧ (c.stream.length = streamLen c.word ∧ c.stream.length ≤ maxLen) ∧
        cutFields c.word c.stream = some i := by
  unfold decode
  split
  next h => simp [h]
  next fmt h =>
    split_ifs with hlen
    · split
      next j hcut => simp only [h, hcut, and_iff_right hlen, Decoded.op.injEq, Option.some.injEq, exists_eq', true_and]
      next hcut => simp [hcut]
    · simp [hlen]

theorem decode_eq_noCommand {maxLen : Nat} {c : Command} {fmt : Format} (hlegal : legalFormat c.word = some fmt)
    (hlen : c.stream.length ≠ streamLen c.word) : decode maxLen c = .noCommand := by
  simp [decode, hlegal, hlen]

end Sys2Proof
end

section
/-! The round trips of the encoding (30_encoding.md R71): each field of an encoded word reads back, and a legal word is made up
of its fields alone. -/

namespace Sys2Proof

/-! ## Encode, then decode -/

theorem encodeWord_legal (i : Instr) :
    opcode (encodeWord i) = Laws.EncodesItsRow.rowOpcode i ∧
      legalFormat (encodeWord i) = some (Laws.EncodesItsRow.rowFormat i) := by
  cases i with
  | init storage capacity => exact Laws.EncodesItsRow.init storage capacity
  | bytesUsed => exact Laws.EncodesItsRow.bytesUsed
  | pushU16 value => exact Laws.EncodesItsRow.pushU16 value
  | pushBytes data => exact Laws.EncodesItsRow.pushBytes data
  | pushCrc data => exact Laws.EncodesItsRow.pushCrc data
  | pushSyn => exact Laws.EncodesItsRow.pushSyn
  | pushFrame type length seq => exact Laws.EncodesItsRow.pushFrame type length seq
  | pushAck seq => exact Laws.EncodesItsRow.pushAck seq
  | pushNak => exact Laws.EncodesItsRow.pushNak
  | pushCmd seq rqid tc tid iid cid payload => exact Laws.EncodesItsRow.pushCmd seq rqid tc tid iid cid payload

/-- The operand bits of an encoded word and the stream cut back into the operation, its fields each at its own place. -/
theorem cutFields_encodeWord (i : Instr) : cutFields (encodeWord i) i.stream = some i := by
  unfold cutFields
  rw [(encodeWord_legal i).1]
  cases i <;>
    simp [Laws.EncodesItsRow.rowOpcode, Instr.stream, encodeWord, field_place_self, field_place_above, field_place_below]

theorem lenField_toNat {stream : List Byte} (h : stream.length ≤ 65535) : (lenField stream).toNat = stream.length := by
  rw [lenField, BitVec.toNat_ofNat, Nat.mod_eq_of_lt (by omega)]

/-- The word of an operation calls for exactly its stream, which fits the 16-bit `len` field. -/
theorem streamLen_encodeWord {i : Instr} (h : i.stream.length ≤ 65535) :
    streamLen (encodeWord i) = i.stream.length := by
  rw [streamLen_of_legalFormat (encodeWord_legal i).2]
  cases i with
  | pushBytes | pushCrc | pushCmd =>
    simpa [Laws.EncodesItsRow.rowFormat, Format.streamLen, Instr.stream, encodeWord, field_place_self,
      field_place_above] using lenField_toNat h
  | _ => rfl

/-- Settles O1: the word is legal, calls for exactly the stream, and its fields are the operands. -/
theorem encodeThenDecode : Obligations.EncodeThenDecode := by
  intro maxLen i hmax hwf
  have hlen : i.stream.length ≤ maxLen := of_decide_eq_true hwf
  have hstream : streamLen (encodeWord i) = i.stream.length := streamLen_encodeWord (hlen.trans hmax)
  exact decode_eq_op_iff.mpr ⟨⟨_, (encodeWord_legal i).2⟩, ⟨hstream.symm, hlen⟩, cutFields_encodeWord i⟩

/-! ## Decode, then encode -/

/-- A word whose bits from `k` up are zero is its lower `k` bits. -/
theorem eq_place_field_of_shiftRight_eq_zero {w : CmdWord} {k : Nat} (h : w >>> k = 0) : w = place 0 (field w 0 k) := by
  rw [shiftRight_eq_zero_iff] at h
  apply BitVec.eq_of_getLsbD_eq
  intro j hj
  rw [getLsbD_place, getLsbD_field, Nat.sub_zero, Nat.zero_add]
  by_cases hjk : j < k
  · simp [hj, hjk]
  · simp [hjk, h j (by omega)]

/-- The fields of a word put back into the bits of a format, beside the opcode (30_encoding.md R63 to R69). -/
def Format.wordOf (op : Byte) (w : CmdWord) : Format → CmdWord
  | .n => place 0 op
  | .i => place 0 op ||| place 8 (field w 8 32) ||| place 40 (field w 40 32)
  | .v => place 0 op ||| place 8 (field w 8 16)
  | .d => place 0 op ||| place 8 (field w 8 16)
  | .f => place 0 op ||| place 8 (field w 8 8) ||| place 16 (field w 16 16) ||| place 32 (field w 32 8)
  | .a => place 0 op ||| place 8 (field w 8 8)
  | .c =>
    place 0 op ||| place 8 (field w 8 8) ||| place 16 (field w 16 16) ||| place 32 (field w 32 8) |||
      place 40 (field w 40 8) ||| place 48 (field w 48 8) ||| place 56 (field w 56 8) ||| place 64 (field w 64 16)

/-- The fields of a format lie side by side from bit 0 up to its reserved bits. -/
theorem Format.place_field_eq_wordOf (w : CmdWord) (fmt : Format) :
    place 0 (field w 0 fmt.reservedFrom) = fmt.wordOf (opcode w) w := by
  cases fmt with
  | n => rfl
  | i =>
    show place 0 (field w 0 (8 + 32 + 32)) = _
    simp only [place_field_split]; rfl
  | v | d => exact place_field_split w 0 8 16
  | f =>
    show place 0 (field w 0 (8 + 8 + 16 + 8)) = _
    simp only [place_field_split]; rfl
  | a => exact place_field_split w 0 8 8
  | c =>
    show place 0 (field w 0 (8 + 8 + 16 + 8 + 8 + 8 + 8 + 16)) = _
    simp only [place_field_split]; rfl

/-- A legal word is made up of its fields alone. -/
theorem Format.wordOf_eq {w : CmdWord} {fmt : Format} (h : legalFormat w = some fmt) : fmt.wordOf (opcode w) w = w := by
  rw [← fmt.place_field_eq_wordOf, ← eq_place_field_of_shiftRight_eq_zero (legalFormat_eq_some_iff.mp h).2]

/-- The operation cut from a word is one of the row that its opcode names. -/
theorem cutFields_row {w : CmdWord} {stream : List Byte} {i : Instr} (h : cutFields w stream = some i) :
    opcode w = Laws.EncodesItsRow.rowOpcode i ∧ formatOf (opcode w) = some (Laws.EncodesItsRow.rowFormat i) := by
  have hop : opcode w = Laws.EncodesItsRow.rowOpcode i := by
    unfold cutFields at h
    split at h <;> cases h
    all_goals exact BitVec.eq_of_toNat_eq ‹_›
  rw [hop]
  exact ⟨rfl, by cases i <;> rfl⟩

theorem lenField_eq {stream : List Byte} {len : Half} (h : stream.length = len.toNat) : lenField stream = len := by
  rw [lenField, h, BitVec.ofNat_toNat, BitVec.setWidth_eq]

/-- The operation cut from a legal word beside a stream as long as the word calls for encodes to that word and stream. -/
theorem encode_of_cutFields {w : CmdWord} {stream : List Byte} {fmt : Format} {i : Instr}
    (hlegal : legalFormat w = some fmt) (hlen : stream.length = streamLen w) (hcut : cutFields w stream = some i) :
    encodeWord i = w ∧ i.stream = stream := by
  obtain ⟨hop, hrow⟩ := cutFields_row hcut
  obtain rfl : Laws.EncodesItsRow.rowFormat i = fmt :=
    Option.some.inj (hrow.symm.trans (legalFormat_eq_some_iff.mp hlegal).1)
  have hword := Format.wordOf_eq hlegal
  rw [streamLen_of_legalFormat hlegal] at hlen
  rw [hop] at hword
  unfold cutFields at hcut
  split at hcut <;> cases hcut
  -- opcodes 0x04, 0x05 and 0x0A, the operations with a stream
  case h_4 | h_5 | h_10 =>
    rw [encodeWord, lenField_eq hlen]
    exact ⟨hword, rfl⟩
  all_goals exact ⟨hword, (List.length_eq_zero_iff.mp hlen).symm⟩

/-- Settles O2: a decoded operation is cut from a legal word beside its own stream, no longer than MAXLEN. -/
theorem decodeThenEncode : Obligations.DecodeThenEncode := by
  intro maxLen c i h
  obtain ⟨⟨fmt, hlegal⟩, ⟨hlen, hmax⟩, hcut⟩ := decode_eq_op_iff.mp h
  obtain ⟨hword, hstream⟩ := encode_of_cutFields hlegal hlen hcut
  exact ⟨congrArg₂ Command.mk hword hstream, decide_eq_true (hstream ▸ hmax)⟩

end Sys2Proof
end

section
/-! A command laid end to end (30_encoding.md R74, R77). -/

namespace Sys2Proof

/-- The byte form of a word, said for its bytes by number. -/
theorem wordBytes_eq_map (w : CmdWord) : wordBytes w = (List.range 12).map fun i => field w (8 * i) 8 := rfl

@[simp] theorem wordBytes_length (w : CmdWord) : (wordBytes w).length = 12 := rfl

/-- The twelve bytes of a word, side by side, are the word. -/
theorem place_wordBytes (w : CmdWord) :
    place 0 (field w 0 8) ||| place 8 (field w 8 8) ||| place 16 (field w 16 8) ||| place 24 (field w 24 8) |||
      place 32 (field w 32 8) ||| place 40 (field w 40 8) ||| place 48 (field w 48 8) ||| place 56 (field w 56 8) |||
      place 64 (field w 64 8) ||| place 72 (field w 72 8) ||| place 80 (field w 80 8) ||| place 88 (field w 88 8) = w :=
  calc _ = place 0 (field w 0 (8 + 8 + 8 + 8 + 8 + 8 + 8 + 8 + 8 + 8 + 8 + 8)) := by simp only [place_field_split]
    _ = w := place_field_whole w

/-- The twelve bytes of a word are read as that word, with its stream where enough bytes stand behind them. -/
theorem ofBytes_wordBytes (w : CmdWord) (rest : List Byte) :
    Command.ofBytes (wordBytes w ++ rest) =
      if streamLen w ≤ rest.length then some (⟨w, rest.take (streamLen w)⟩, rest.drop (streamLen w)) else none := by
  simp only [wordBytes, List.cons_append, List.nil_append, Command.ofBytes, place_wordBytes]

/-- Settles O6: the word is read back from its twelve bytes, and then says how many stream bytes are its own. -/
theorem commandBytesLaidEndToEnd : Obligations.CommandBytesLaidEndToEnd := by
  intro c rest hlen
  refine ⟨by simp [Command.bytes, hlen], fun i hi => ?_, ?_⟩
  · rw [Command.bytes, List.getElem?_append_left (by simpa using hi), wordBytes_eq_map]
    simp [hi]
  · rw [Command.bytes, List.append_assoc, ofBytes_wordBytes, ← hlen]
    simp

end Sys2Proof
end

section
/-! How a command is answered: its response, the queue it leaves, and the pairs that are answered `ILLEGAL` or not at all
(30_encoding.md R62, R72, R78; 60_exceptions.md R155, R161). -/

namespace Sys2Proof.Machine

/-! ## The response of an operation -/

/-- A push answers neither `ILLEGAL` nor a value: it is refused with `UNBOUND`, or ends with its pending status. -/
theorem runPush_response {recipe : State → State} (hr : Steered recipe) {s t : State} (h : runPush recipe s = .next t) :
    ∃ r, t.resp = some r ∧ r.status ≠ .illegal ∧ (r.status ≠ .ok → r.value = 0) := by
  obtain ⟨-, rfl⟩ | ⟨-, rfl⟩ := runPush_cases h
  · exact ⟨_, rfl, by decide, fun _ => rfl⟩
  · obtain ⟨out, skipped, ha, -, -⟩ := hr s.start s.start (.refl _)
    exact ⟨_, rfl, by cases skipped <;> simp [ha.pending], fun _ => rfl⟩

/-- No operation answers `ILLEGAL`, and only `OK` comes with a value, that of `BYTES_USED` (30_encoding.md R78). -/
theorem exec_response {i : Instr} {s t : State} (h : exec i s = .next t) :
    ∃ r, t.resp = some r ∧ r.status ≠ .illegal ∧ (r.status ≠ .ok → r.value = 0) := by
  cases i with
  | init storage capacity => obtain ⟨-, rfl⟩ | ⟨-, rfl⟩ := exec_init_cases h <;> exact ⟨_, rfl, by decide, fun _ => rfl⟩
  | bytesUsed =>
    obtain ⟨-, rfl⟩ | ⟨-, rfl⟩ := exec_bytesUsed_cases h
    · exact ⟨_, rfl, by decide, fun _ => rfl⟩
    · exact ⟨_, rfl, nofun, fun hne => absurd rfl hne⟩
  | pushU16 value => exact runPush_response (State.gwrite_steered _) h
  | pushBytes data => exact runPush_response (State.gwrite_steered data) (exec_pushBytes_next h)
  | pushCrc data => exact runPush_response (State.appendCrc_steered data) h
  | pushSyn => exact runPush_response synRecipe_steered h
  | pushFrame type length seq => exact runPush_response (frameRecipe_steered type length seq) h
  | pushAck seq => exact runPush_response (shortFrameRecipe_steered _ seq) h
  | pushNak => exact runPush_response (shortFrameRecipe_steered _ 0) h
  | pushCmd seq rqid tc tid iid cid payload =>
    obtain ⟨-, rfl⟩ | ⟨-, h⟩ := exec_pushCmd_cases h
    · exact ⟨_, rfl, by decide, fun _ => rfl⟩
    · exact runPush_response (cmdRecipe_steered seq rqid tc tid iid cid payload) h

/-- The host's queue is not the engine's to change. -/
theorem exec_keeps_port {i : Instr} {s t : State} (h : exec i s = .next t) : t.port = s.port := by
  cases i with
  | init storage capacity => obtain ⟨-, rfl⟩ | ⟨-, rfl⟩ := exec_init_cases h <;> rfl
  | _ =>
    obtain ⟨out, skipped, ha⟩ := exec_answered rfl h
    exact ha.port

/-! ## Commands at the port -/

theorem acceptCommand_of_decode_illegal {run : Instr → State → Host.Outcome State Fault Refusal} {c : Command} {s : State}
    (hdec : decode s.cfg.maxLen c = .illegal) : acceptCommand run c s = .next (s.respond .illegal 0) := by
  simp only [acceptCommand, hdec, refuse]

theorem acceptCommand_of_decode_noCommand {run : Instr → State → Host.Outcome State Fault Refusal} {c : Command} {s : State}
    (hdec : decode s.cfg.maxLen c = .noCommand) : acceptCommand run c s = .refused .notACommand := by
  simp only [acceptCommand, hdec]

/-- A command is answered `ILLEGAL` with nothing else changed exactly when its word is illegal (60_exceptions.md R155). -/
theorem acceptCommand_eq_illegal_iff {c : Command} {s : State} :
    acceptCommand exec c s = .next (s.respond .illegal 0) ↔ legalFormat c.word = none := by
  rw [← decode_eq_illegal_iff (maxLen := s.cfg.maxLen)]
  refine ⟨fun h => ?_, acceptCommand_of_decode_illegal⟩
  cases hdec : decode s.cfg.maxLen c with
  | illegal => rfl
  | op i =>
    rw [acceptCommand_of_decode_op hdec] at h
    obtain ⟨r, hresp, hne, -⟩ := exec_response h
    obtain rfl : _ = r := Option.some.inj hresp
    exact absurd rfl hne
  | noCommand =>
    rw [acceptCommand_of_decode_noCommand hdec] at h
    cases h

/-- Settles O3: the grounds are those of an illegal word, and no operation answers `ILLEGAL`. -/
theorem illegalWordIsAnswered : Obligations.IllegalWordIsAnswered := by
  intro s c rest hport
  rw [← legalFormat_eq_none_iff, step_of_command hport]
  exact acceptCommand_eq_illegal_iff.symm

/-- Settles O5: in each format the stream is not as long as the word calls for. -/
theorem streamMismatchIsNoCommand : Obligations.StreamMismatchIsNoCommand := by
  intro s c rest fmt hport hlegal hd hc hother
  have hlen : c.stream.length ≠ streamLen c.word := by
    rw [streamLen_of_legalFormat hlegal]
    cases fmt with
    | d => exact hd rfl
    | c => exact hc rfl
    | _ => exact fun h => hother nofun nofun (List.length_eq_zero_iff.mp h)
  rw [step_of_command hport]
  exact acceptCommand_of_decode_noCommand (decode_eq_noCommand hlegal hlen)

/-- Settles O59: with the guard an operation answers a next state, and an illegal word is answered `ILLEGAL`. -/
theorem everyCommandIsAnswered : Obligations.EveryCommandIsAnswered := by
  intro s c rest hport hdec hguard
  cases hd : decode s.cfg.maxLen c with
  | op i =>
    obtain ⟨t, ht⟩ := exec_next_of_guard i { s with port := rest } hguard
    obtain ⟨r, hresp, -, hvalue⟩ := exec_response ht
    exact ⟨t, r, (stepRunsDecodedInstruction s c rest i hport hd).trans ht, exec_keeps_port ht, hresp, hvalue⟩
  | illegal =>
    exact ⟨_, _, (step_of_command hport).trans (acceptCommand_of_decode_illegal hd), rfl, rfl, fun _ => rfl⟩
  | noCommand => exact absurd hd hdec

end Sys2Proof.Machine
end

section
/-! The printed words, lines and codes (30_encoding.md R75, R78; 60_exceptions.md R151; 95_test_vectors.md 2.5). -/

namespace Sys2Proof.Machine

/-- Settles O7: each word decoded by evaluation. -/
theorem sampleWordsDecode : Obligations.SampleWordsDecode := by
  unfold Obligations.SampleWordsDecode
  decide

/-- Settles O8: each line read by evaluation. -/
theorem sampleLinesAssemble : Obligations.SampleLinesAssemble := by
  unfold Obligations.SampleLinesAssemble
  decide

/-- Settles O58: the packed word is the value beside the status code. -/
theorem responseWordLayout : Obligations.ResponseWordLayout :=
  ⟨fun _ => ⟨BitVec.extractLsb'_append_eq_right, BitVec.extractLsb'_append_eq_left⟩, rfl, rfl, rfl, rfl, rfl⟩

end Sys2Proof.Machine
end

section
/-! A command frame built from `INIT` on (30_encoding.md R56; 40_cursor.md R85; 70_reset_and_hazards.md R177, R178). -/

namespace Sys2Proof.Machine

@[simp] theorem cmdFrame_length (c : Config) (seq : Byte) (rqid : Half) (tc tid iid cid : Byte) (payload : List Byte) :
    (cmdFrame c seq rqid tc tid iid cid payload).length = 18 + payload.length := by
  simp only [cmdFrame, List.length_append, List.length_cons, List.length_nil, headerBytes_length, blockBytes_length,
    crcBytes_length]
  omega

/-- Where the whole frame fits, no write of `PUSH_CMD` is skipped (43_builders.md R130). -/
theorem cmdRecipe_appended_of_room (seq : Byte) (rqid : Half) (tc tid iid cid : Byte) (payload : List Byte) {s : State}
    (hroom : 18 + payload.length ≤ s.room) :
    Appended s (cmdRecipe seq rqid tc tid iid cid payload s) (cmdFrame s.cfg seq rqid tc tid iid cid payload) false := by
  have hsyn : Appended s (synRecipe s) (synMarker s.cfg) false := by
    simpa only [if_pos (show 2 ≤ s.room by omega), decide_eq_false (show ¬ s.room < 2 by omega)] using
      synRecipe_appended s
  have hroom₁ : (synRecipe s).room = s.room - 2 := hsyn.room
  have hframe := frameRecipe_appended s.cfg.tDseq (cmdLength payload) seq (synRecipe s)
  rw [if_pos (by omega), decide_eq_false (by omega), hsyn.cfg] at hframe
  have hhead := hsyn.trans hframe
  have hroom₂ : (frameRecipe s.cfg.tDseq (cmdLength payload) seq (synRecipe s)).room = s.room - 8 := hhead.room
  have hblock := blockRecipe_appended rqid tc tid iid cid payload
    (frameRecipe s.cfg.tDseq (cmdLength payload) seq (synRecipe s))
  rw [if_pos (by omega), decide_eq_false (by omega), hhead.cfg] at hblock
  simpa only [cmdRecipe, cmdFrame, synMarker, cmdLength, List.append_assoc, Bool.or_false] using hhead.trans hblock

/-- `PUSH_CMD` where its whole frame fits. -/
theorem exec_pushCmd_of_room (seq : Byte) (rqid : Half) (tc tid iid cid : Byte) {payload : List Byte} {s : State}
    (hb : s.bound = true) (hlen : payload.length ≤ 65527) (hroom : 18 + payload.length ≤ s.room) :
    ∃ t, exec (.pushCmd seq rqid tc tid iid cid payload) s = .next t ∧
      Answered s t (cmdFrame s.cfg seq rqid tc tid iid cid payload) false := by
  have happ := cmdRecipe_appended_of_room (s := s.start) seq rqid tc tid iid cid payload hroom
  refine ⟨_, ?_, happ.answered (by simpa using hroom) hb⟩
  simp [exec, execPushCmd, runPush, hb, show ¬ 65535 < 8 + payload.length by omega]

/-- `INIT` over a window inside the address space (40_cursor.md R81). -/
theorem exec_init_accepted {storage capacity : Word} {s : State}
    (h : initOutOfRange s.cfg storage.toNat capacity.toNat = false) :
    exec (.init storage capacity) s = .next ((s.start.bindWindow storage.toNat capacity.toNat).respond .ok 0) := by
  simp [exec, execInit, h]

theorem exec_bytesUsed_bound {s : State} (hb : s.bound = true) :
    exec .bytesUsed s = .next (s.start.respond .ok (BitVec.ofNat 32 s.bytesUsed)) := by
  simp [exec, execBytesUsed, hb]

/-- Settles O49: the window just bound has room for the whole frame, and `POS` stands at its start. -/
theorem initThenCmdLeavesTheFrame : Obligations.InitThenCmdLeavesTheFrame := by
  intro s storage capacity seq rqid tc tid iid cid payload hstorage hcapacity htop hlen hfits
  have hinit := exec_init_accepted ((initOutOfRange_eq_false_iff ..).mpr ⟨hstorage, hcapacity, htop⟩)
  obtain ⟨u, hcmd, ha⟩ := exec_pushCmd_of_room
    (s := (s.start.bindWindow storage.toNat capacity.toNat).respond .ok 0) seq rqid tc tid iid cid rfl hlen
    (by simpa [State.room] using hfits)
  have hbound : u.bound = true := ha.bound
  have hused : u.bytesUsed = 18 + payload.length := by simp [State.bytesUsed, ha.pos, ha.beginAddr]
  have hmem : u.mem = Memory.writeSeq s.mem storage.toNat (cmdFrame s.cfg seq rqid tc tid iid cid payload) := ha.mem
  refine ⟨_, u, _, hinit, hcmd, exec_bytesUsed_bound hbound, ?_, ?_, cmdFrame_length .., fun k hk => ?_, fun a haddr => ?_⟩
  · simp [State.transmittable, hbound, ha.ovf]
  · simp [hused]
  · simp [hmem, Memory.read_writeSeq, hk]
  · simpa [hmem] using Memory.read_writeSeq_outside _ s.mem storage.toNat a (by simpa using haddr)

end Sys2Proof.Machine
end

section
/-! The cursor operations `INIT` and `BYTES_USED` (40_cursor.md R81 to R84). -/

namespace Sys2Proof.Machine

/-- `INIT` over a window that is not inside the address space (40_cursor.md R83). -/
theorem exec_init_refused {storage capacity : Word} {s : State}
    (h : initOutOfRange s.cfg storage.toNat capacity.toNat = true) :
    exec (.init storage capacity) s = .next (s.respond .range 0) := by
  simp [exec, execInit, refuse, h]

/-- Settles O22: each operation is refused or answers, and neither touches memory on the way. -/
theorem cursorOperationsStoreNothing : Obligations.CursorOperationsStoreNothing := by
  refine ⟨fun storage capacity s t h => ?_, fun s t h => ?_⟩
  · obtain ⟨-, rfl⟩ | ⟨-, rfl⟩ := exec_init_cases h <;> exact ⟨rfl, rfl, fun _ => rfl⟩
  · obtain ⟨-, rfl⟩ | ⟨-, rfl⟩ := exec_bytesUsed_cases h <;> exact ⟨rfl, fun _ => rfl⟩

/-- Settles O24: the window passes the range check. -/
theorem initBindsTheWindow : Obligations.InitBindsTheWindow := by
  intro s storage capacity hstorage hcapacity htop
  have hinside := (initOutOfRange_eq_false_iff s.cfg storage.toNat capacity.toNat).mpr ⟨hstorage, hcapacity, htop⟩
  exact ⟨_, exec_init_accepted hinside, rfl⟩

/-- Settles O25: the grounds are those of the range check; where neither field is zero, each is below a top that the two
reach together. -/
theorem initPastTheTopIsRefused : Obligations.InitPastTheTopIsRefused := by
  intro s storage capacity
  refine ⟨fun hpast => exec_init_refused ?_, fun htop hcapacity hstorage => ?_⟩
  · rw [initOutOfRange_iff]
    omega
  · have hinside : initOutOfRange s.cfg storage.toNat capacity.toNat = false := by
      rw [initOutOfRange_eq_false_iff]
      omega
    exact ⟨_, exec_init_accepted hinside, rfl, htop⟩

/-- An address has at most 32 bits (92_eei_decisions.md, the OPEN parameters). -/
theorem Config.addrTop_le {c : Config} (h : c.wf = true) : c.addrTop ≤ 2 ^ 32 := by
  simp only [Config.wf, Bool.and_eq_true, decide_eq_true_eq] at h
  exact Nat.pow_le_pow_right Nat.two_pos (by omega)

/-- The bytes used are part of the capacity (10_state.md R15). -/
theorem State.Inv.bytesUsed_le {s : State} (h : s.Inv) (hb : s.bound = true) : s.bytesUsed ≤ s.endAddr - s.beginAddr :=
  Nat.sub_le_sub_right (h.pos_le_end hb) s.beginAddr

/-- The value of a response holds the bytes used exactly (10_state.md R18). -/
theorem State.Inv.bytesUsed_lt {s : State} (h : s.Inv) (hb : s.bound = true) : s.bytesUsed < 2 ^ 32 :=
  calc s.bytesUsed
    _ ≤ s.endAddr - s.beginAddr := h.bytesUsed_le hb
    _ < s.cfg.addrTop := h.window_lt hb
    _ ≤ 2 ^ 32 := Config.addrTop_le h.cfg_wf

/-- Settles O26: under a binding the count is at most the capacity, which 32 bits hold. -/
theorem bytesUsedAnswersPosMinusBegin : Obligations.BytesUsedAnswersPosMinusBegin := by
  intro s hs
  refine ⟨fun hb => ?_, exec_unbound rfl⟩
  have hexact : (BitVec.ofNat 32 s.bytesUsed).toNat = s.bytesUsed := by
    rw [BitVec.toNat_ofNat, Nat.mod_eq_of_lt (hs.bytesUsed_lt hb)]
  exact ⟨_, _, exec_bytesUsed_bound hb, hexact, hexact.trans_le (hs.bytesUsed_le hb), rfl⟩

end Sys2Proof.Machine
end

section
/-! The laws of `bytes_used` (40_cursor.md R86): the pending status tells an operation whose every write was made, and `POS`
advanced by its whole byte count, from one that skipped a write and fell short of it. -/

namespace Sys2Proof.Machine

/-- From `s` to `t` either `n` bytes were appended and the pending status kept, or fewer were and it became `CAPACITY`. -/
def Counted (n : Nat) (s t : State) : Prop :=
  (t.scratch.pending = s.scratch.pending ∧ t.pos = s.pos + n) ∨ (t.scratch.pending = .capacity ∧ t.pos < s.pos + n)

/-- The counts of two parts of a recipe add up; a part that follows a skipped write leaves `CAPACITY` pending. -/
theorem Counted.trans {s t u : State} {m n : Nat} (h : Counted m s t) (g : Counted n t u) : Counted (m + n) s u := by
  obtain ⟨hp, hpos⟩ | ⟨hp, hpos⟩ := h <;> obtain ⟨gp, gpos⟩ | ⟨gp, gpos⟩ := g
  · exact .inl ⟨gp.trans hp, by omega⟩
  · exact .inr ⟨gp, by omega⟩
  · exact .inr ⟨gp.trans hp, by omega⟩
  · exact .inr ⟨gp, by omega⟩

/-- Appended bytes count as `n` where a write was skipped exactly if they are fewer. -/
theorem Appended.counted {s t : State} {out : List Byte} {skipped : Bool} {n : Nat} (h : Appended s t out skipped)
    (hout : if skipped then out.length < n else out.length = n) : Counted n s t := by
  have hpos := h.pos
  have hpending := h.pending
  cases skipped
  · exact .inl ⟨hpending, hpos.trans (congrArg _ hout)⟩
  · exact .inr ⟨hpending, hpos.trans_lt (Nat.add_lt_add_left hout _)⟩

/-- A guarded write of nothing is skipped only outside the window. -/
theorem State.gwrite_counted (d : List Byte) {s : State} (h : 0 < d.length ∨ s.pos ≤ s.endAddr) :
    Counted d.length s (s.gwrite d) := by
  refine (s.gwrite_appended d).counted ?_
  by_cases hfit : s.fits d.length = true
  · simp [hfit]
  · have hlen : 0 < d.length := by
      rw [State.fits_iff] at hfit
      omega
    simpa [hfit] using hlen

theorem State.appendCrc_counted (d : List Byte) (s : State) : Counted 2 s (s.appendCrc d) := by
  refine (s.appendCrc_appended d).counted ?_
  by_cases h2 : 2 ≤ s.room <;> simp [h2] <;> omega

theorem synRecipe_counted (s : State) : Counted 2 s (synRecipe s) :=
  State.gwrite_counted (synMarker s.cfg) (.inl Nat.two_pos)

theorem frameRecipe_counted (type : Byte) (length : Half) (seq : Byte) (s : State) :
    Counted 6 s (frameRecipe type length seq s) := by
  refine (frameRecipe_appended type length seq s).counted ?_
  by_cases h6 : 6 ≤ s.room
  · simp [h6]
  · by_cases h4 : 4 ≤ s.room <;> simp [h6, h4] <;> omega

/-- SYN, header with its checksum, trailing checksum. -/
theorem shortFrameRecipe_counted (type seq : Byte) (s : State) : Counted 10 s (shortFrameRecipe type seq s) :=
  ((synRecipe_counted s).trans (frameRecipe_counted type 0 seq _)).trans (State.appendCrc_counted [] _)

theorem blockRecipe_counted (rqid : Half) (tc tid iid cid : Byte) (payload : List Byte) (s : State) :
    Counted (10 + payload.length) s (blockRecipe rqid tc tid iid cid payload s) := by
  refine (blockRecipe_appended rqid tc tid iid cid payload s).counted ?_
  simp only [decide_eq_true_eq]
  split_ifs <;> simp only [List.length_append, blockBytes_length, crcBytes_length, List.length_nil] <;> omega

/-- SYN, header with its checksum, block with its own. -/
theorem cmdRecipe_counted (seq : Byte) (rqid : Half) (tc tid iid cid : Byte) (payload : List Byte) (s : State) :
    Counted (18 + payload.length) s (cmdRecipe seq rqid tc tid iid cid payload s) := by
  have h := ((synRecipe_counted s).trans (frameRecipe_counted s.cfg.tDseq (cmdLength payload) seq _)).trans
    (blockRecipe_counted rqid tc tid iid cid payload _)
  rwa [show 2 + 6 + (10 + payload.length) = 18 + payload.length by omega] at h

/-- The status of the answer tells how far `POS` moved: by `n` after `OK`, by less after `CAPACITY`. -/
def CountedByStatus (n : Nat) (s t : State) : Prop :=
  (t.status = some .ok → t.pos = s.pos + n) ∧ (t.status = some .capacity → t.pos < s.pos + n)

/-- A refusal ends neither `OK` nor `CAPACITY`. -/
theorem State.refused_countedByStatus (n : Nat) (s : State) {st : Status} (hok : st ≠ .ok) (hcap : st ≠ .capacity) :
    CountedByStatus n s (s.respond st 0) := by
  simp [CountedByStatus, State.status, hok, hcap]

theorem runPush_countedByStatus {recipe : State → State} {n : Nat} {s t : State} (h : runPush recipe s = .next t)
    (hcount : s.bound = true → Counted n s.start (recipe s.start)) : CountedByStatus n s t := by
  obtain ⟨-, rfl⟩ | ⟨hb, rfl⟩ := runPush_cases h
  · exact s.refused_countedByStatus n (by decide) (by decide)
  · obtain ⟨hp, hpos⟩ | ⟨hp, hpos⟩ := hcount hb <;> simpa [CountedByStatus, State.status, hp] using hpos

/-- Operation by operation, with the count of 20_memory.md R35. -/
theorem exec_countedByStatus {i : Instr} {s t : State} (hs : s.Inv) (hi : isInit i = false) (h : exec i s = .next t) :
    CountedByStatus (byteCount i) s t := by
  cases i with
  | init storage capacity => cases hi
  | bytesUsed =>
    obtain ⟨-, rfl⟩ | ⟨-, rfl⟩ := exec_bytesUsed_cases h
    · exact s.refused_countedByStatus 0 (by decide) (by decide)
    · simp [CountedByStatus, State.status, byteCount]
  | pushU16 value => exact runPush_countedByStatus h fun _ => State.gwrite_counted (le16 value) (.inl Nat.two_pos)
  | pushBytes data =>
    exact runPush_countedByStatus (exec_pushBytes_next h) fun hb => State.gwrite_counted data (.inr (hs.pos_le_end hb))
  | pushCrc data => exact runPush_countedByStatus h fun _ => State.appendCrc_counted data _
  | pushSyn => exact runPush_countedByStatus h fun _ => synRecipe_counted _
  | pushFrame type length seq => exact runPush_countedByStatus h fun _ => frameRecipe_counted type length seq _
  | pushAck seq => exact runPush_countedByStatus h fun _ => shortFrameRecipe_counted s.cfg.tAck seq _
  | pushNak => exact runPush_countedByStatus h fun _ => shortFrameRecipe_counted s.cfg.tNak 0 _
  | pushCmd seq rqid tc tid iid cid payload =>
    obtain ⟨-, rfl⟩ | ⟨-, h⟩ := exec_pushCmd_cases h
    · exact s.refused_countedByStatus _ (by decide) (by decide)
    · exact runPush_countedByStatus h fun _ => cmdRecipe_counted seq rqid tc tid iid cid payload _

/-- An operation other than `INIT` that is not answered `UNBOUND` ran under a binding (60_exceptions.md R156). -/
theorem bound_of_status_ne_unbound {i : Instr} {s t : State} (hi : isInit i = false) (h : exec i s = .next t)
    (hst : t.status ≠ some .unbound) : s.bound = true := by
  by_contra hb
  rw [exec_unbound hi (Bool.eq_false_of_not_eq_true hb)] at h
  cases h
  exact hst rfl

/-- Settles O19: `BEGIN` stays, so `bytes_used` grows as `POS` does, and the status tells how far that is. -/
theorem bytesUsedCountsAppendedBytes : Obligations.BytesUsedCountsAppendedBytes := by
  intro i s t hs h
  obtain ⟨hother, hinit, -⟩ := onlyInitMovesTheWindow i s t h
  simp only [State.bytesUsed]
  refine ⟨fun hi hst => ?_, fun hi => ?_, fun hi hst => ?_, fun hi hst => ?_⟩
  · rw [(hinit hi hst).1, Nat.sub_self]
  all_goals obtain ⟨hbegin, -, -, hmono⟩ := hother hi
  · omega
  · have hle := hs.begin_le_pos (bound_of_status_ne_unbound hi h (by simp [hst]))
    have hpos := (exec_countedByStatus hs hi h).1 hst
    omega
  · have hle := hs.begin_le_pos (bound_of_status_ne_unbound hi h (by simp [hst]))
    have hpos := (exec_countedByStatus hs hi h).2 hst
    omega

end Sys2Proof.Machine
end

section
/-! The buffer primitives `PUSH_U16`, `PUSH_BYTES`, `PUSH_CRC`: each is one guarded write, whole or not at all
(41_primitives.md R90 to R99). -/

namespace Sys2Proof.Machine

/-! ## A command that is one guarded write -/

/-- A push that skipped its only write (41_primitives.md R92). -/
theorem State.pushed_nil_false (s : State) :
    s.pushed [] false = { s with ovf := true, resp := some { status := .capacity, value := 0 } } := by
  simp [State.pushed, Memory.writeSeq]

/-- A push that had nothing to write. -/
theorem State.pushed_nil_true (s : State) :
    s.pushed [] true = { s with resp := some { status := .ok, value := 0 } } := by
  simp [State.pushed, Memory.writeSeq]

/-- Where the bytes fit they are appended; else nothing but `OVF` and the response changes (41_primitives.md R90). -/
theorem runPush_gwrite (d : List Byte) {s : State} (hb : s.bound = true) :
    ∃ t, runPush (State.gwrite d) s = .next t ∧
      t.visible = (if s.pos + d.length ≤ s.endAddr then s.pushed d true
        else { s with ovf := true, resp := some { status := .capacity, value := 0 } }).visible := by
  obtain ⟨t, ht, hv⟩ := runPush_pushed hb (s.start.gwrite_appended d)
  refine ⟨t, ht, hv.trans ?_⟩
  rw [← s.pushed_nil_false, State.start_fits, Bool.not_not]
  by_cases hfit : s.pos + d.length ≤ s.endAddr
  · simp [hfit, (s.fits_iff _).mpr hfit]
  · simp [hfit, Bool.eq_false_of_not_eq_true (mt (s.fits_iff _).mp hfit)]

/-- The same answer field by field, with the bytes appended and whether the write was skipped. -/
theorem runPush_gwrite_answered (d : List Byte) {s : State} (hb : s.bound = true) :
    ∃ t, runPush (State.gwrite d) s = .next t ∧
      Answered s t (if s.fits d.length then d else []) (!s.fits d.length) := by
  refine ⟨_, if_pos hb, (s.start.gwrite_appended d).answered ?_ hb⟩
  split_ifs with hfit
  · rw [State.start_fits, State.fits_iff] at hfit
    rw [State.room]
    omega
  · exact Nat.zero_le _

/-- Two recipes that append the same bytes and skip alike answer states equal in everything visible, bound or not. -/
theorem runPush_visible_eq {recipe recipe' : State → State} {s : State} {out : List Byte} {skipped : Bool}
    (h : Appended s.start (recipe s.start) out skipped) (h' : Appended s.start (recipe' s.start) out skipped) :
    ∃ t u, runPush recipe s = .next t ∧ runPush recipe' s = .next u ∧ t.visible = u.visible := by
  cases hb : s.bound
  · exact ⟨_, _, runPush_unbound recipe hb, runPush_unbound recipe' hb, rfl⟩
  · obtain ⟨t, ht, hv⟩ := runPush_pushed hb h
    obtain ⟨u, hu, hv'⟩ := runPush_pushed hb h'
    exact ⟨t, u, ht, hu, hv.trans hv'.symm⟩

/-! ## `PUSH_U16` -/

@[simp] theorem le16_length (v : Half) : (le16 v).length = 2 := rfl

/-- Settles O28: the guarded write of two bytes that fit. -/
theorem pushU16Appends : Obligations.PushU16Appends := by
  intro s value hb hfit
  obtain ⟨t, ht, hv⟩ := runPush_gwrite (le16 value) hb
  rw [le16_length, if_pos hfit] at hv
  have hmem : t.mem = Memory.writeSeq s.mem s.pos (le16 value) := congrArg State.mem hv
  refine ⟨t, ht, hv, ?_, ?_⟩ <;> rw [hmem]
  · exact Memory.read_writeSeq_inside (le16 value) s.mem s.pos 0 Nat.two_pos
  · exact Memory.read_writeSeq_inside (le16 value) s.mem s.pos 1 Nat.one_lt_two

/-- Settles O29: the guarded write of two bytes that do not fit. -/
theorem pushU16ViolationWritesNothing : Obligations.PushU16ViolationWritesNothing := by
  intro s value hb hshort
  obtain ⟨t, ht, hv⟩ := runPush_gwrite (le16 value) hb
  rw [le16_length, if_neg (Nat.not_le.mpr hshort)] at hv
  exact ⟨t, ht, hv⟩

/-! ## `PUSH_BYTES` -/

/-- With the guard, and also without it where the data fits, the copy is a guarded write (41_primitives.md R95, R96). -/
theorem exec_pushBytes_eq_runPush {data : List Byte} {s : State}
    (h : s.cfg.guardPushBytes = true ∨ s.pos + data.length ≤ s.endAddr) :
    exec (.pushBytes data) s = runPush (State.gwrite data) s := by
  rw [← State.fits_iff] at h
  obtain hguard | hfit := h
  · simp [exec, execPushBytes, hguard]
  · simp [exec, execPushBytes, hfit]

/-- A copy that fits is appended, with the guard or without. -/
theorem exec_pushBytes_of_fits {data : List Byte} {s : State} (hb : s.bound = true)
    (hfit : s.pos + data.length ≤ s.endAddr) :
    ∃ t, exec (.pushBytes data) s = .next t ∧ t.visible = (s.pushed data true).visible := by
  rw [exec_pushBytes_eq_runPush (.inr hfit)]
  simpa only [if_pos hfit] using runPush_gwrite data hb

/-- Settles O30: with the guard the copy is a guarded write, and what it appends reads back. -/
theorem pushBytesGuarded : Obligations.PushBytesGuarded := by
  intro s data hb hguard
  rw [exec_pushBytes_eq_runPush (.inl hguard)]
  obtain ⟨t, ht, hv⟩ := runPush_gwrite data hb
  refine ⟨t, ht, hv, fun hfit k hk => ?_⟩
  rw [if_pos hfit] at hv
  have hmem : t.mem = Memory.writeSeq s.mem s.pos data := congrArg State.mem hv
  rw [hmem, Memory.read_writeSeq_inside data s.mem s.pos k hk, List.getElem?_eq_getElem hk]

/-- Settles O31: the fault is raised exactly where the data does not fit. -/
theorem pushBytesUnguarded : Obligations.PushBytesUnguarded := by
  intro s data hb hbare
  refine ⟨exec_pushBytes_of_fits hb, fun hshort => ?_⟩
  have hfit : s.fits data.length = false := decide_eq_false (Nat.not_le.mpr hshort)
  simp [exec, execPushBytes, hb, hbare, hfit]

/-- Settles O32: no bytes fit any window with `POS <= END`, and bytes that reach `END` exactly fit too. -/
theorem pushBytesEmptyAndExactFill : Obligations.PushBytesEmptyAndExactFill := by
  refine ⟨fun s hb hpos => ?_, fun s data hb hfill => ?_⟩
  · rw [← s.pushed_nil_true]
    exact exec_pushBytes_of_fits hb hpos
  · obtain ⟨t, ht, hv⟩ := exec_pushBytes_of_fits hb hfill.le
    have hstatus : t.status = some .ok := congrArg State.status hv
    have hpos : t.pos = s.pos + data.length := congrArg State.pos hv
    exact ⟨t, ht, hstatus, hpos.trans hfill⟩

theorem exec_pushBytes_answered (data : List Byte) {s : State} (hb : s.bound = true)
    (hguard : s.cfg.guardPushBytes = true) :
    ∃ t, exec (.pushBytes data) s = .next t ∧
      Answered s t (if s.fits data.length then data else []) (!s.fits data.length) := by
  rw [exec_pushBytes_eq_runPush (.inl hguard)]
  exact runPush_gwrite_answered data hb

/-- An operation that ends `OK` skipped no write. -/
theorem Answered.skipped_eq_false {s t : State} {out : List Byte} {skipped : Bool} (h : Answered s t out skipped)
    (hok : t.status = some .ok) : skipped = false := by
  cases hs : skipped
  · rfl
  · have hcapacity := h.status.mpr hs
    rw [hok] at hcapacity
    cases hcapacity

/-- What fits after `out` was appended is what fits together with `out`. -/
theorem Answered.fits {s t : State} {out : List Byte} {skipped : Bool} (h : Answered s t out skipped) (n : Nat) :
    t.fits n = s.fits (out.length + n) := by
  rw [State.fits, State.fits, h.pos, h.endAddr, Nat.add_assoc]

/-- Settles O33: after a first copy that fits, the second fits exactly where the joined copy does; after one that does
not, `OVF` is set and stays. -/
theorem pushBytesConcatenates : Obligations.PushBytesConcatenates := by
  intro s a b hbound hguard
  obtain ⟨t, ht, hjoined⟩ := exec_pushBytes_answered (a ++ b) hbound hguard
  obtain ⟨t1, ht1, hfirst⟩ := exec_pushBytes_answered a hbound hguard
  obtain ⟨t2, ht2, hsecond⟩ := exec_pushBytes_answered b (hfirst.bound.trans hbound) (by rw [hfirst.cfg, hguard])
  refine ⟨t, t1, t2, ht, ht1, ht2, fun hok1 hok2 => ?_, fun hshort => ?_⟩
  · have hfit1 : s.fits a.length = true := by simpa using hfirst.skipped_eq_false hok1
    have hfit2 : t1.fits b.length = true := by simpa using hsecond.skipped_eq_false hok2
    simp only [hfit1, hfit2, if_true, Bool.not_true] at hfirst hsecond
    rw [hfirst.fits, ← List.length_append] at hfit2
    simp only [hfit2, if_true, Bool.not_true] at hjoined
    refine ⟨?_, ?_, ?_⟩
    · rw [hjoined.mem, hsecond.mem, hfirst.mem, hfirst.pos, Memory.writeSeq_append]
    · rw [hjoined.pos, hsecond.pos, hfirst.pos, List.length_append, Nat.add_assoc]
    · rw [hjoined.ovf, hsecond.ovf, hfirst.ovf, Bool.or_false, Bool.or_false]
  · have hfit : s.fits (a ++ b).length = false := decide_eq_false (Nat.not_le.mpr hshort)
    refine ⟨by rw [hjoined.ovf, hfit, Bool.not_false, Bool.or_true], ?_⟩
    rw [hsecond.ovf, hfirst.ovf]
    cases hfit1 : s.fits a.length
    · simp
    · simp only [hfit1, if_true] at hfirst
      simp [hfirst.fits, ← List.length_append, hfit]

/-- Settles O34: with the guard both commands are the guarded write of the same two bytes. -/
theorem pushU16IsPushBytes : Obligations.PushU16IsPushBytes := by
  intro s v hguard
  have heq : exec (.pushBytes [lo8 v, hi8 v]) s = exec (.pushU16 v) s := exec_pushBytes_eq_runPush (.inl hguard)
  obtain ⟨t, ht⟩ := exec_next_of_guard (.pushU16 v) s hguard
  exact ⟨t, t, ht, heq.trans ht, rfl⟩

/-! ## `PUSH_CRC` -/

/-- Settles O36: both append the checksum's two bytes where they fit; the CRC unit is hidden state. -/
theorem pushCrcIsPushU16OfTheChecksum : Obligations.PushCrcIsPushU16OfTheChecksum := by
  intro s d
  exact runPush_visible_eq (s.start.appendCrc_appended d)
    (s.start.gwrite_appended_room (le16 (crc16 s.cfg.crc d)) Nat.two_pos)

/-- Settles O35: it is `PUSH_U16` of the checksum, a guarded write of its two bytes. -/
theorem pushCrcAppendsTheChecksum : Obligations.PushCrcAppendsTheChecksum := by
  intro s data hb
  obtain ⟨t, u, ht, hu, hvisible⟩ := pushCrcIsPushU16OfTheChecksum s data
  obtain ⟨v, hv, hpushed⟩ := runPush_gwrite (le16 (crc16 s.cfg.crc data)) hb
  obtain rfl : u = v := Host.Outcome.next.inj (hu.symm.trans hv)
  exact ⟨t, ht, hvisible.trans hpushed⟩

end Sys2Proof.Machine
end

section
/-! The CRC step as arithmetic over exclusive-or: a shift of the remainder is linear, so the remainder of a whole byte
sequence is linear in the initial value and the bytes together (42_crc16.md R108, R109, R111). -/

namespace Sys2Proof.Machine

/-! ## Shifts of the remainder -/

theorem crcShift_eq_shiftLeft_xor (poly c : Half) : crcShift poly c = c <<< 1 ^^^ if c.msb then poly else 0 := by
  unfold crcShift
  split <;> simp

/-- The polynomial is added where exactly one of the two top bits is set: added for both, it cancels. -/
theorem crcShift_xor (poly c d : Half) : crcShift poly (c ^^^ d) = crcShift poly c ^^^ crcShift poly d := by
  have hpoly : (if (c ^^^ d).msb then poly else 0) = (if c.msb then poly else 0) ^^^ if d.msb then poly else 0 := by
    cases hc : c.msb <;> cases hd : d.msb <;> simp [hc, hd]
  rw [crcShift_eq_shiftLeft_xor, crcShift_eq_shiftLeft_xor, crcShift_eq_shiftLeft_xor, hpoly, BitVec.shiftLeft_xor_distrib]
  ac_rfl

theorem crcShifts_xor (poly : Half) (n : Nat) :
    ∀ c d : Half, crcShifts poly n (c ^^^ d) = crcShifts poly n c ^^^ crcShifts poly n d := by
  induction n with
  | zero => exact fun c d => rfl
  | succ n ih => exact fun c d => by simp only [crcShifts, crcShift_xor, ih]

@[simp] theorem crcShift_zero (poly : Half) : crcShift poly 0#16 = 0#16 := by simp [crcShift]

@[simp] theorem crcShifts_zero (poly : Half) (n : Nat) : crcShifts poly n 0#16 = 0#16 := by
  induction n with
  | zero => rfl
  | succ n ih => rw [crcShifts, crcShift_zero, ih]

theorem crcShift_of_msb_eq_false {poly c : Half} (h : c.msb = false) : crcShift poly c = c <<< 1 := by
  simp [crcShift, h]

/-- While no one is shifted out, the polynomial is not added. -/
theorem crcShifts_of_leading_zeros (poly : Half) (n : Nat) :
    ∀ c : Half, (∀ i < n, c.getMsbD i = false) → crcShifts poly n c = c <<< n := by
  induction n with
  | zero => exact fun c _ => by simp [crcShifts]
  | succ n ih =>
    intro c h
    have hmsb : c.msb = false := by simpa [BitVec.msb] using h 0 n.succ_pos
    rw [crcShifts, crcShift_of_msb_eq_false hmsb, ih, ← BitVec.shiftLeft_add, Nat.add_comm]
    intro i hi
    simp [h (i + 1) (Nat.succ_lt_succ hi)]

/-! ## One byte -/

theorem crcStep_xor (poly c d : Half) (x y : Byte) :
    crcStep poly (c ^^^ d) (x ^^^ y) = crcStep poly c x ^^^ crcStep poly d y := by
  rw [crcStep, crcStep, crcStep, ← crcShifts_xor, BitVec.setWidth_xor, BitVec.shiftLeft_xor_distrib]
  ac_rfl

/-- A byte equal to the remainder's top byte cancels it, and the eight shifts only move the low byte up. -/
theorem crcStep_hi8 (poly c : Half) : crcStep poly c (hi8 c) = c <<< 8 := by
  have hcancel : c ^^^ ((hi8 c).setWidth 16 <<< 8) = (lo8 c).setWidth 16 := by
    ext i hi
    by_cases h8 : i < 8
    · simp [lo8, h8, BitVec.getLsbD_eq_getElem hi]
    · simp [hi8, lo8, h8, Nat.add_sub_cancel' (Nat.not_lt.mp h8), BitVec.getLsbD_eq_getElem hi]
      omega
  rw [crcStep, hcancel, crcShifts_of_leading_zeros]
  · ext i hi
    have h8 : i - 8 < 8 := by omega
    have h16 : i - 8 < 16 := by omega
    simp [lo8, h8, BitVec.getLsbD_eq_getElem h16]
  · intro i hi
    simp [BitVec.getMsbD_setWidth, hi]

/-- Settles O52: the remainder's top byte is split off the byte taken in; it cancels, and what is left of the byte
indexes the table. -/
theorem crcTableFormAgrees : Obligations.CrcTableFormAgrees := by
  refine ⟨fun poly c b => ?_, by decide, by decide, by decide⟩
  have hsplit : b = hi8 c ^^^ (hi8 c ^^^ b) := by rw [← BitVec.xor_assoc, BitVec.xor_self, BitVec.zero_xor]
  have htop : (c >>> 8).setWidth 8 = hi8 c := by
    ext i hi
    simp [hi8]
  calc crcStepTable poly c b = crcStep poly c (hi8 c) ^^^ crcStep poly 0 (hi8 c ^^^ b) := by
        rw [crcStepTable, crcTable, crcStep_hi8, htop]
    _ = crcStep poly (c ^^^ 0) (hi8 c ^^^ (hi8 c ^^^ b)) := (crcStep_xor ..).symm
    _ = crcStep poly c b := by rw [← hsplit, show c ^^^ 0 = c from BitVec.xor_zero]

/-! ## A sequence of bytes -/

theorem foldl_crcStep_zipWith_xor (poly : Half) (a : List Byte) :
    ∀ (b : List Byte) (c d : Half), a.length = b.length →
      (List.zipWith (· ^^^ ·) a b).foldl (crcStep poly) (c ^^^ d) =
        a.foldl (crcStep poly) c ^^^ b.foldl (crcStep poly) d := by
  induction a with
  | nil => exact fun b c d hlen => by simp [List.eq_nil_of_length_eq_zero hlen.symm]
  | cons x a ih =>
    intro b c d hlen
    cases b with
    | nil => cases hlen
    | cons y b =>
      simp only [List.zipWith_cons_cons, List.foldl_cons, crcStep_xor]
      exact ih b _ _ (Nat.succ.inj hlen)

/-- The default CRC reverses nothing and adds nothing at the end. -/
theorem crc16_ccittFalse (d : List Byte) : crc16 (.family ccittFalse) d = d.foldl (crcStep 0x1021) 0xFFFF :=
  BitVec.xor_zero

/-- Settles O53: each byte of the appended remainder cancels its top byte, and after both nothing is left. -/
theorem crcResidueIsZero : Obligations.CrcResidueIsZero := by
  intro d
  rw [crc16_ccittFalse, List.foldl_append, ← crc16_ccittFalse]
  generalize crc16 (.family ccittFalse) d = c
  have hlow : lo8 c = hi8 (c <<< 8) := by
    ext i hi
    simp [lo8, hi8]
    omega
  calc crcStep 0x1021 (crcStep 0x1021 c (hi8 c)) (lo8 c) = c <<< 8 <<< 8 := by rw [crcStep_hi8, hlow, crcStep_hi8]
    _ = 0 := by rw [← BitVec.shiftLeft_add, BitVec.shiftLeft_eq_zero (by decide)]; rfl

/-- Settles O54: an initial value is the exclusive-or of three of it, and zero bytes change no sequence. -/
theorem crcIsAffine : Obligations.CrcIsAffine := by
  intro a b hlen
  simp only [crc16_ccittFalse]
  have hlenZip : (List.zipWith (· ^^^ ·) a b).length = (List.replicate a.length (0 : Byte)).length := by simp [hlen]
  have hzeros : List.zipWith (· ^^^ ·) (List.zipWith (· ^^^ ·) a b) (List.replicate a.length (0 : Byte)) =
      List.zipWith (· ^^^ ·) a b := by
    apply List.ext_getElem <;> simp [hlen]
  rw [← foldl_crcStep_zipWith_xor _ a b _ _ hlen, ← foldl_crcStep_zipWith_xor _ _ _ _ _ hlenZip, hzeros]
  rfl

/-! ## The default CRC's values and the family -/

/-- Settles O56, by running the model on the printed sequences. -/
theorem crcDefaultValues : Obligations.CrcDefaultValues := by
  unfold Obligations.CrcDefaultValues
  decide +kernel

/-- Settles O57: the accumulator is a left fold, so the last byte is taken in last. -/
theorem crcFamilyTakesBytesInOrder : Obligations.CrcFamilyTakesBytesInOrder :=
  fun _ => ⟨rfl, fun _ _ => List.foldl_append⟩

end Sys2Proof.Machine
end

section
/-! Bursts: the same remainder taken bit by bit. Up to 16 bits in a row stand in the remainder as they are, and shifts alone
lose nothing where the polynomial has a constant term (42_crc16.md R111 (d)). -/

namespace Sys2Proof.Machine

/-! ## Bits, most significant first -/

/-- The first 16 bits of a list as a remainder, the first bit on top, zeros where the list ends before. -/
def packBits (bits : List Bool) : Half := BitVec.ofFnBE fun i : Fin 16 => bits.getD i false

theorem getMsbD_packBits (bits : List Bool) {i : Nat} (hi : i < 16) :
    (packBits bits).getMsbD i = bits.getD i false := by
  rw [packBits, BitVec.getMsbD_ofFnBE, dif_pos hi]

@[simp] theorem packBits_replicate_false (n : Nat) : packBits (List.replicate n false) = 0#16 := by
  apply BitVec.eq_of_getMsbD_eq
  intro i hi
  simp [getMsbD_packBits _ hi]

@[simp] theorem packBits_nil : packBits [] = 0#16 := packBits_replicate_false 0

theorem packBits_cons (x : Bool) (bits : List Bool) : packBits (x :: bits) = packBits [x] ^^^ packBits bits >>> 1 := by
  apply BitVec.eq_of_getMsbD_eq
  intro i hi
  rw [BitVec.getMsbD_xor, BitVec.getMsbD_ushiftRight, getMsbD_packBits _ hi, getMsbD_packBits _ hi]
  cases i with
  | zero => simp
  | succ i => simp [getMsbD_packBits bits (Nat.lt_of_succ_lt hi), hi]

/-- Fewer than 16 bits leave the lowest bit free, so the shift drops nothing. -/
theorem crcShift_packBits_ushiftRight (poly : Half) {bits : List Bool} (hlen : bits.length < 16) :
    crcShift poly (packBits bits >>> 1) = packBits bits := by
  rw [crcShift_of_msb_eq_false (by simp)]
  apply BitVec.eq_of_getMsbD_eq
  intro i hi
  rw [BitVec.getMsbD_shiftLeft, BitVec.getMsbD_ushiftRight]
  by_cases hlast : i + 1 < 16
  · simp [hlast, getMsbD_packBits _ hi]
  · have hend : bits.length ≤ i := by omega
    simp [hlast, getMsbD_packBits _ hi, hend]

/-- A remainder that takes its input bit by bit: the bit into the top, then one shift. -/
def crcBits (poly : Half) (c : Half) (bits : List Bool) : Half :=
  bits.foldl (fun c x => crcShift poly (c ^^^ packBits [x])) c

/-- Up to 16 bits may be added all at once before the shifts. -/
theorem crcBits_eq_crcShifts (poly : Half) (bits : List Bool) :
    ∀ c : Half, bits.length ≤ 16 → crcBits poly c bits = crcShifts poly bits.length (c ^^^ packBits bits) := by
  induction bits with
  | nil => exact fun c _ => by simp [crcBits, crcShifts]
  | cons x bits ih =>
    intro c hlen
    have hshift : crcShift poly (c ^^^ packBits (x :: bits)) = crcShift poly (c ^^^ packBits [x]) ^^^ packBits bits := by
      rw [packBits_cons, ← BitVec.xor_assoc, crcShift_xor, crcShift_packBits_ushiftRight poly hlen]
    rw [List.length_cons, crcShifts, hshift, ← ih _ (Nat.le_of_succ_le hlen), crcBits, crcBits, List.foldl_cons]

theorem crcBits_append (poly c : Half) (xs ys : List Bool) :
    crcBits poly c (xs ++ ys) = crcBits poly (crcBits poly c xs) ys := List.foldl_append

theorem crcBits_replicate_false (poly : Half) (n : Nat) :
    ∀ c : Half, crcBits poly c (List.replicate n false) = crcShifts poly n c := by
  induction n with
  | zero => exact fun c => rfl
  | succ n ih =>
    intro c
    have hzero : packBits [false] = 0#16 := packBits_replicate_false 1
    rw [crcShifts, ← ih, List.replicate_succ, crcBits, List.foldl_cons, hzero, BitVec.xor_zero, crcBits]

/-- Bit `j` of a byte sequence, most significant bit of each byte first (42_crc16.md R107). -/
def bitAt (d : List Byte) (j : Nat) : Bool := (d.getD (j / 8) 0).getMsbD (j % 8)

/-- The bits of a byte sequence in the order the CRC takes them. -/
def bitsOf (d : List Byte) : List Bool := (List.range (8 * d.length)).map (bitAt d)

theorem getD_bitsOf (d : List Byte) (j : Nat) : (bitsOf d).getD j false = bitAt d j := by
  by_cases hj : j < 8 * d.length
  · simp [bitsOf, hj]
  · have hend : d.length ≤ j / 8 := by omega
    simp [bitsOf, bitAt, hj, hend]

theorem bitAt_cons_of_lt (b : Byte) (d : List Byte) {j : Nat} (hj : j < 8) : bitAt (b :: d) j = b.getMsbD j := by
  simp [bitAt, Nat.div_eq_of_lt hj, Nat.mod_eq_of_lt hj]

theorem bitAt_cons_add (b : Byte) (d : List Byte) (j : Nat) : bitAt (b :: d) (8 + j) = bitAt d j := by
  simp [bitAt, Nat.add_comm 8 j]

theorem bitsOf_cons (b : Byte) (d : List Byte) : bitsOf (b :: d) = (List.range 8).map b.getMsbD ++ bitsOf d := by
  have hfirst : (List.range 8).map (bitAt (b :: d)) = (List.range 8).map b.getMsbD :=
    List.map_congr_left fun j hj => bitAt_cons_of_lt b d (List.mem_range.mp hj)
  have hrest : bitAt (b :: d) ∘ (8 + ·) = bitAt d := funext (bitAt_cons_add b d)
  rw [bitsOf, List.length_cons, Nat.mul_succ, Nat.add_comm, List.range_add, List.map_append, List.map_map, hfirst, hrest,
    bitsOf]

theorem packBits_byte (b : Byte) : packBits ((List.range 8).map b.getMsbD) = b.setWidth 16 <<< 8 := by
  apply BitVec.eq_of_getMsbD_eq
  intro i hi
  rw [getMsbD_packBits _ hi]
  by_cases h8 : i < 8
  · simp [BitVec.getMsbD_setWidth, h8]
  · simp [BitVec.getMsbD_setWidth, h8, BitVec.getMsbD_of_ge b i (Nat.not_lt.mp h8)]

theorem crcStep_eq_crcBits (poly c : Half) (b : Byte) :
    crcStep poly c b = crcBits poly c ((List.range 8).map b.getMsbD) := by
  rw [crcBits_eq_crcShifts poly _ c (by simp), packBits_byte, crcStep, List.length_map, List.length_range]

theorem foldl_crcStep_eq_crcBits (poly : Half) (d : List Byte) :
    ∀ c : Half, d.foldl (crcStep poly) c = crcBits poly c (bitsOf d) := by
  induction d with
  | nil => exact fun c => rfl
  | cons b d ih => exact fun c => by rw [List.foldl_cons, ih, bitsOf_cons, crcBits_append, crcStep_eq_crcBits]

/-! ## Bursts -/

/-- A polynomial with a constant term brings its lowest bit in with every one that is shifted out. -/
theorem eq_zero_of_crcShift_eq_zero {poly c : Half} (hodd : poly.getLsbD 0 = true) (h : crcShift poly c = 0) : c = 0 := by
  cases hmsb : c.msb with
  | true =>
    have hlow := congrArg (BitVec.getLsbD · 0) h
    simp [crcShift, hmsb, -BitVec.getLsbD_eq_getElem, hodd] at hlow
  | false =>
    rw [crcShift_of_msb_eq_false hmsb] at h
    apply BitVec.eq_of_getMsbD_eq
    intro i hi
    cases i with
    | zero => simpa [BitVec.msb] using hmsb
    | succ i => simpa [hi] using congrArg (BitVec.getMsbD · i) h

theorem eq_zero_of_crcShifts_eq_zero {poly : Half} (hodd : poly.getLsbD 0 = true) (n : Nat) :
    ∀ c : Half, crcShifts poly n c = 0 → c = 0 := by
  induction n with
  | zero => exact fun c h => h
  | succ n ih => exact fun c h => eq_zero_of_crcShift_eq_zero hodd (ih _ h)

/-- The zeros before a burst leave the remainder zero, and those after it only shift what the burst added. -/
theorem packBits_eq_zero_of_crcBits_eq_zero {poly : Half} (hodd : poly.getLsbD 0 = true) {burst : List Bool}
    (hlen : burst.length ≤ 16) {k m : Nat}
    (h : crcBits poly 0 (List.replicate k false ++ (burst ++ List.replicate m false)) = 0) : packBits burst = 0 := by
  rw [crcBits_append, crcBits_append, crcBits_replicate_false, crcBits_replicate_false, crcBits_eq_crcShifts _ _ _ hlen] at h
  simpa using eq_zero_of_crcShifts_eq_zero hodd _ _ (eq_zero_of_crcShifts_eq_zero hodd _ _ h)

theorem eq_replicate_false_of_getD {bits : List Bool} (h : ∀ j, bits.getD j false = false) :
    bits = List.replicate bits.length false := by
  refine List.ext_getElem List.length_replicate.symm fun j hj _ => ?_
  simpa [hj] using h j

/-- Bits whose ones all stand inside one span of 16 and that leave a zero remainder zero hold no one at all. -/
theorem getD_eq_false_of_crcBits_eq_zero {poly : Half} (hodd : poly.getLsbD 0 = true) {bits : List Bool} {p : Nat}
    (hspan : ∀ j, bits.getD j false = true → p ≤ j ∧ j < p + 16) (h : crcBits poly 0 bits = 0) (j : Nat) :
    bits.getD j false = false := by
  have hout : ∀ i, ¬(p ≤ i ∧ i < p + 16) → bits.getD i false = false := fun i hi =>
    Bool.eq_false_iff.mpr fun hone => hi (hspan i hone)
  have hbefore := eq_replicate_false_of_getD (bits := bits.take p) fun i => by
    by_cases hi : i < p
    · simpa [List.getElem?_take, hi] using hout i (by omega)
    · simp [hi]
  have hafter := eq_replicate_false_of_getD (bits := bits.drop (p + 16)) fun i => by
    simpa [List.getElem?_drop] using hout (p + 16 + i) (by omega)
  have hsplit : bits = bits.take p ++ ((bits.drop p).take 16 ++ bits.drop (p + 16)) := by simp [← List.drop_drop]
  rw [hsplit, hbefore, hafter] at h
  have hburst := packBits_eq_zero_of_crcBits_eq_zero hodd (List.length_take_le ..) h
  by_cases hj : p ≤ j ∧ j < p + 16
  · obtain ⟨i, rfl⟩ := Nat.exists_eq_add_of_le hj.1
    have hi : i < 16 := by omega
    simpa [hburst, List.getElem?_take, hi] using getMsbD_packBits ((bits.drop p).take 16) hi
  · exact hout j hj

theorem bitAt_zipWith_xor {a b : List Byte} (hlen : a.length = b.length) (j : Nat) :
    bitAt (List.zipWith (· ^^^ ·) a b) j = (bitAt a j ^^ bitAt b j) := by
  by_cases hj : j / 8 < a.length
  · simp [bitAt, hj, hlen ▸ hj]
  · simp [bitAt, hj, hlen ▸ hj]

theorem eq_of_bitAt_eq {a b : List Byte} (hlen : a.length = b.length) (h : ∀ j, bitAt a j = bitAt b j) : a = b := by
  refine List.ext_getElem hlen fun i ha hb => BitVec.eq_of_getMsbD_eq fun k hk => ?_
  have hdiv : (8 * i + k) / 8 = i := by omega
  have hmod : (8 * i + k) % 8 = k := by omega
  simpa [bitAt, hdiv, hmod, ha, hb] using h (8 * i + k)

/-- Settles O55: the CRCs differ by what the exclusive-or of the sequences leaves of a zero remainder, and the ones of that
exclusive-or stand inside the span. -/
theorem crcDetectsBursts : Obligations.CrcDetectsBursts := by
  intro a b p hlen hne hspan heq
  have hbit : ∀ j, (bitsOf (List.zipWith (· ^^^ ·) a b)).getD j false = (bitAt a j ^^ bitAt b j) := fun j =>
    (getD_bitsOf _ j).trans (bitAt_zipWith_xor hlen j)
  have hzero : crcBits 0x1021 0 (bitsOf (List.zipWith (· ^^^ ·) a b)) = 0 := by
    rw [crc16_ccittFalse, crc16_ccittFalse] at heq
    have hxor := foldl_crcStep_zipWith_xor 0x1021 a b 0xFFFF 0xFFFF hlen
    rwa [heq, BitVec.xor_self, BitVec.xor_self, foldl_crcStep_eq_crcBits] at hxor
  refine hne (eq_of_bitAt_eq hlen fun j => ?_)
  have hj := getD_eq_false_of_crcBits_eq_zero (by decide) (p := p) (fun i hi => hspan i ?_) hzero j
  · rw [hbit] at hj
    simpa using hj
  · rw [hbit] at hi
    exact bne_iff_ne.mp hi

end Sys2Proof.Machine
end

section
/-! What a push appends, as a function of its operands, the configuration and the remaining capacity alone
(43_builders.md R128, R134, R136). -/

namespace Sys2Proof.Machine

/-! ## The rows of the composed builders -/

/-- The checksum of `d` where two bytes remain (41_primitives.md R98). -/
def crcAt (c : Config) (d : List Byte) (r : Nat) : List Byte := if 2 ≤ r then crcBytes c d else []

/-- The SYN marker where two bytes remain (43_builders.md R122). -/
def synAt (c : Config) (r : Nat) : List Byte := if 2 ≤ r then synMarker c else []

/-- The frame body: header and checksum, the header alone, or nothing (43_builders.md R125). -/
def frameAt (c : Config) (type : Byte) (length : Half) (seq : Byte) (r : Nat) : List Byte :=
  if 6 ≤ r then headerBytes c type length seq else if 4 ≤ r then frameHeader type length seq else []

/-- Steps 3 to 6 of `PUSH_CMD`, their five cases (43_builders.md R131, R132). -/
def blockAt (c : Config) (rqid : Half) (tc tid iid cid : Byte) (payload : List Byte) (r : Nat) : List Byte :=
  if 10 + payload.length ≤ r then
    blockBytes c rqid tc tid iid cid ++ payload ++ crcBytes c (blockBytes c rqid tc tid iid cid ++ payload)
  else if 8 + payload.length ≤ r then blockBytes c rqid tc tid iid cid ++ payload
  else if 10 ≤ r then blockBytes c rqid tc tid iid cid ++ crcBytes c (blockBytes c rqid tc tid iid cid)
  else if 8 ≤ r then blockBytes c rqid tc tid iid cid else []

/-- The rows of 43_builders.md R128 are three writes, each against what the ones before it left: in every row its bounds
decide every guard. -/
theorem shortFrameAt_eq_parts (c : Config) (type seq : Byte) (r : Nat) :
    shortFrameAt c type seq r =
      synAt c r ++ frameAt c type 0 seq (r - (synAt c r).length) ++
        crcAt c [] (r - (synAt c r ++ frameAt c type 0 seq (r - (synAt c r).length)).length) := by
  unfold shortFrameAt
  split_ifs <;>
    simp (disch := omega) only [synAt, frameAt, crcAt, if_pos, if_neg, List.length_append, List.length_nil,
      synMarker_length, headerBytes_length, frameHeader_length] <;>
    rfl

/-- The frame up to its trailing checksum. -/
theorem cmdFrame_take (c : Config) (seq : Byte) (rqid : Half) (tc tid iid cid : Byte) (payload : List Byte) :
    (cmdFrame c seq rqid tc tid iid cid payload).take (16 + payload.length) =
      synMarker c ++ headerBytes c c.tDseq (cmdLength payload) seq ++ (blockBytes c rqid tc tid iid cid ++ payload) := by
  refine List.take_left' ?_
  simp only [List.length_append, List.length_cons, List.length_nil, headerBytes_length, blockBytes_length]
  omega

/-- The rows of 43_builders.md R134 likewise: marker, frame body and block. -/
theorem cmdFrameAt_eq_parts (c : Config) (seq : Byte) (rqid : Half) (tc tid iid cid : Byte) (payload : List Byte) (r : Nat) :
    cmdFrameAt c seq rqid tc tid iid cid payload r =
      synAt c r ++ frameAt c c.tDseq (cmdLength payload) seq (r - (synAt c r).length) ++
        blockAt c rqid tc tid iid cid payload
          (r - (synAt c r ++ frameAt c c.tDseq (cmdLength payload) seq (r - (synAt c r).length)).length) := by
  unfold cmdFrameAt
  split_ifs <;>
    simp (disch := omega) only [synAt, frameAt, blockAt, if_pos, if_neg, List.length_append, List.length_nil,
      synMarker_length, headerBytes_length, frameHeader_length, cmdFrame_take] <;>
    rfl

/-- Marker and frame body take eight bytes where nothing of them is skipped, so a write of `n` bytes after them leaves all
three whole exactly from capacity `8 + n`. -/
theorem synFrame_complete_iff (c : Config) (type : Byte) (length : Half) (seq : Byte) (r n : Nat) :
    (2 ≤ r ∧ 6 ≤ r - (synAt c r).length) ∧
        n ≤ r - (synAt c r ++ frameAt c type length seq (r - (synAt c r).length)).length ↔
      8 + n ≤ r := by
  rw [List.length_append]
  unfold synAt frameAt
  split_ifs <;> simp only [List.length_nil, synMarker_length, headerBytes_length, frameHeader_length] at * <;> omega

theorem synFrame_skipped_eq (c : Config) (type : Byte) (length : Half) (seq : Byte) (r n : Nat) :
    (decide (r < 2) || decide (r - (synAt c r).length < 6) ||
        decide (r - (synAt c r ++ frameAt c type length seq (r - (synAt c r).length)).length < n)) =
      decide (r < 8 + n) := by
  rw [Bool.eq_iff_iff]
  simp only [Bool.or_eq_true, decide_eq_true_eq, ← Nat.not_le, ← synFrame_complete_iff c type length seq r n,
    Classical.not_and_iff_not_or_not]

/-- Marker and frame body, the first two writes of `PUSH_ACK`, `PUSH_NAK` and `PUSH_CMD`. -/
theorem synFrame_appended (type : Byte) (length : Half) (seq : Byte) (s : State) :
    Appended s (frameRecipe type length seq (synRecipe s))
      (synAt s.cfg s.room ++ frameAt s.cfg type length seq (s.room - (synAt s.cfg s.room).length))
      (decide (s.room < 2) || decide (s.room - (synAt s.cfg s.room).length < 6)) := by
  have hsyn := synRecipe_appended s
  have hframe := frameRecipe_appended type length seq (synRecipe s)
  rw [hsyn.cfg, hsyn.room] at hframe
  exact hsyn.trans hframe

/-- A frame without payload appends the row of its remaining capacity (43_builders.md R128). -/
theorem shortFrameRecipe_appended (type seq : Byte) (s : State) :
    Appended s (shortFrameRecipe type seq s) (shortFrameAt s.cfg type seq s.room) (decide (s.room < 10)) := by
  have hhead := synFrame_appended type 0 seq s
  have hcrc := State.appendCrc_appended [] (frameRecipe type 0 seq (synRecipe s))
  rw [hhead.cfg, hhead.room] at hcrc
  rw [shortFrameAt_eq_parts, ← synFrame_skipped_eq s.cfg type 0 seq s.room 2]
  exact hhead.trans hcrc

/-- `PUSH_CMD` appends the row of its remaining capacity (43_builders.md R134). -/
theorem cmdRecipe_appended (seq : Byte) (rqid : Half) (tc tid iid cid : Byte) (payload : List Byte) (s : State) :
    Appended s (cmdRecipe seq rqid tc tid iid cid payload s) (cmdFrameAt s.cfg seq rqid tc tid iid cid payload s.room)
      (decide (s.room < 18 + payload.length)) := by
  have hhead := synFrame_appended s.cfg.tDseq (cmdLength payload) seq s
  have hblock := blockRecipe_appended rqid tc tid iid cid payload
    (frameRecipe s.cfg.tDseq (cmdLength payload) seq (synRecipe s))
  rw [hhead.cfg, hhead.room] at hblock
  have hskipped := synFrame_skipped_eq s.cfg s.cfg.tDseq (cmdLength payload) seq s.room (10 + payload.length)
  rw [show 8 + (10 + payload.length) = 18 + payload.length by omega] at hskipped
  rw [cmdFrameAt_eq_parts, ← hskipped]
  exact hhead.trans hblock

/-! ## The state after a push, field by field -/

section
variable {s t : State} {out : List Byte} {complete : Bool} (h : t.visible = (s.pushed out complete).visible)
include h

theorem cfg_of_pushed : t.cfg = s.cfg := (congrArg State.cfg h :)

theorem bound_of_pushed : t.bound = s.bound := (congrArg State.bound h :)

theorem endAddr_of_pushed : t.endAddr = s.endAddr := (congrArg State.endAddr h :)

theorem pos_of_pushed : t.pos = s.pos + out.length := (congrArg State.pos h :)

theorem mem_of_pushed : t.mem = Memory.writeSeq s.mem s.pos out := (congrArg State.mem h :)

theorem ovf_of_pushed : t.ovf = (s.ovf || !complete) := (congrArg State.ovf h :)

theorem resp_of_pushed : t.resp = some { status := if complete then .ok else .capacity, value := 0 } :=
  (congrArg State.resp h :)

theorem status_of_pushed : t.status = some (if complete then .ok else .capacity) := (congrArg State.status h :)

theorem room_of_pushed : t.room = s.room - out.length := by
  rw [State.room, State.room, endAddr_of_pushed h, pos_of_pushed h, Nat.sub_sub]

end

/-! ## What a push appends -/

/-- The bytes a push appends at remaining capacity `r`, where its operands are in range (20_memory.md R36;
43_builders.md R125, R128, R129, R134). -/
def pushOutput (c : Config) (r : Nat) : Instr → List Byte
  | .init _ _ => []
  | .bytesUsed => []
  | .pushU16 value => if 2 ≤ r then le16 value else []
  | .pushBytes data => if data.length ≤ r then data else []
  | .pushCrc data => crcAt c data r
  | .pushSyn => synAt c r
  | .pushFrame type length seq => frameAt c type length seq r
  | .pushAck seq => shortFrameAt c c.tAck seq r
  | .pushNak => shortFrameAt c c.tNak 0 r
  | .pushCmd seq rqid tc tid iid cid payload => cmdFrameAt c seq rqid tc tid iid cid payload r

/-- If the push is the copy of `PUSH_BYTES`, it does not stop: the engine has the guard, or the data fits (41_primitives.md
R95, R96). With `POS <= END` the guard for no bytes at all, too, is a comparison with the remaining capacity. -/
def CopyRuns (i : Instr) (s : State) : Prop :=
  ∀ data, i = .pushBytes data → s.pos ≤ s.endAddr ∧ (s.cfg.guardPushBytes = true ∨ data.length ≤ s.room)

/-- The guard is a comparison with the remaining capacity, also for no bytes at all where `POS <= END`. -/
theorem State.pos_add_le_iff_room {s : State} {n : Nat} (h : 0 < n ∨ s.pos ≤ s.endAddr) :
    s.pos + n ≤ s.endAddr ↔ n ≤ s.room := by
  rw [State.room]
  omega

/-- A recipe that appends `out` and skips a write exactly below `n` bytes of room. -/
theorem runPush_pushed_of_room {recipe : State → State} {s : State} {out : List Byte} {n : Nat} (hb : s.bound = true)
    (h : Appended s.start (recipe s.start) out (decide (s.room < n))) :
    ∃ t, runPush recipe s = .next t ∧ t.visible = (s.pushed out (decide (n ≤ s.room))).visible := by
  have hcomplete : (!decide (s.room < n)) = decide (n ≤ s.room) := by simp only [← decide_not, Nat.not_lt]
  rw [← hcomplete]
  exact runPush_pushed hb h

/-- Every push in range, in every bound state: it appends its output at this capacity and ends `OK` exactly where its
whole byte count fits (43_builders.md R120; 60_exceptions.md R152). -/
theorem exec_push_pushed {i : Instr} {s : State} (hi : isPush i = true) (hrange : payloadOutOfRange i = false)
    (hb : s.bound = true) (hcopy : CopyRuns i s) :
    ∃ t, exec i s = .next t ∧
      t.visible = (s.pushed (pushOutput s.cfg s.room i) (decide (byteCount i ≤ s.room))).visible := by
  cases i with
  | init storage capacity => cases hi
  | bytesUsed => cases hi
  | pushU16 value => exact runPush_pushed_of_room hb (s.start.gwrite_appended_room (le16 value) Nat.two_pos)
  | pushBytes data =>
    obtain ⟨hpos, hruns⟩ := hcopy data rfl
    rw [exec_pushBytes_eq_runPush (by rwa [State.pos_add_le_iff_room (.inr hpos)])]
    obtain ⟨t, ht, hv⟩ := runPush_pushed hb (s.start.gwrite_appended data)
    rw [State.start_fits] at hv
    simp only [pushOutput, byteCount, ← State.pos_add_le_iff_room (.inr hpos), ← State.fits_iff, Bool.decide_eq_true]
    exact ⟨t, ht, by simpa only [Bool.not_not] using hv⟩
  | pushCrc data => exact runPush_pushed_of_room hb (s.start.appendCrc_appended data)
  | pushSyn => exact runPush_pushed_of_room hb (synRecipe_appended s.start)
  | pushFrame type length seq => exact runPush_pushed_of_room hb (frameRecipe_appended type length seq s.start)
  | pushAck seq => exact runPush_pushed_of_room hb (shortFrameRecipe_appended s.cfg.tAck seq s.start)
  | pushNak => exact runPush_pushed_of_room hb (shortFrameRecipe_appended s.cfg.tNak 0 s.start)
  | pushCmd seq rqid tc tid iid cid payload =>
    have hexec : exec (.pushCmd seq rqid tc tid iid cid payload) s =
        runPush (cmdRecipe seq rqid tc tid iid cid payload) s := by
      have hshort : decide (65535 < 8 + payload.length) = false := hrange
      simp only [exec, execPushCmd, hshort, Bool.and_false, Bool.false_eq_true, if_false]
    rw [hexec]
    exact runPush_pushed_of_room hb (cmdRecipe_appended seq rqid tc tid iid cid payload s.start)

end Sys2Proof.Machine
end

section
/-! The builders `PUSH_SYN`, `PUSH_FRAME`, `PUSH_ACK`, `PUSH_NAK` and `PUSH_CMD` at every remaining capacity
(43_builders.md R122 to R134, R136, R138). -/

namespace Sys2Proof.Machine

/-! ## One builder at every capacity -/

theorem CopyRuns.of_ne {i : Instr} {s : State} (h : ∀ data, i ≠ .pushBytes data) : CopyRuns i s :=
  fun data hi => absurd hi (h data)

/-- Settles O37: the marker is one guarded write. -/
theorem pushSynAppendsTheMarker : Obligations.PushSynAppendsTheMarker := fun s hb =>
  runPush_gwrite (synMarker s.cfg) hb

/-- Two bytes, the low one first, as a number. -/
theorem le16_ofNat (lo hi : Byte) : le16 (BitVec.ofNat 16 (lo.toNat + 256 * hi.toNat)) = [lo, hi] := by
  have hlo : lo8 (BitVec.ofNat 16 (lo.toNat + 256 * hi.toNat)) = lo := by
    apply BitVec.eq_of_toNat_eq
    simp only [lo8, BitVec.extractLsb'_toNat, BitVec.toNat_ofNat, Nat.shiftRight_zero]
    omega
  have hhi : hi8 (BitVec.ofNat 16 (lo.toNat + 256 * hi.toNat)) = hi := by
    apply BitVec.eq_of_toNat_eq
    simp only [hi8, BitVec.extractLsb'_toNat, BitVec.toNat_ofNat, Nat.shiftRight_eq_div_pow]
    omega
  rw [le16, hlo, hhi]

/-- Settles O38: both are the guarded write of the same two bytes. -/
theorem pushSynIsPushU16 : Obligations.PushSynIsPushU16 := by
  intro s
  refine runPush_visible_eq (s.start.gwrite_appended (synMarker s.cfg)) ?_
  rw [le16_ofNat]
  exact s.start.gwrite_appended (synMarker s.cfg)

/-- Settles O39: the three cases of the frame body. -/
theorem pushFrameAppendsHeaderAndChecksum : Obligations.PushFrameAppendsHeaderAndChecksum := by
  intro s type length seq hb
  obtain ⟨t, ht, hv⟩ := exec_push_pushed (i := .pushFrame type length seq) rfl rfl hb (.of_ne nofun)
  refine ⟨t, ht, hv.trans ?_⟩
  have h6 : s.pos + 6 ≤ s.endAddr ↔ 6 ≤ s.room := State.pos_add_le_iff_room (.inl (by decide))
  have h4 : s.pos + 4 ≤ s.endAddr ↔ 4 ≤ s.room := State.pos_add_le_iff_room (.inl (by decide))
  simp only [pushOutput, byteCount, frameAt, frameHeader, h6, h4, ← s.pushed_nil_false]
  split_ifs <;> simp only [*, decide_true, decide_false]

/-- Settles O40: the row is the output of the three writes of the recipe. -/
theorem pushAckAtEveryCapacity : Obligations.PushAckAtEveryCapacity := fun _ seq hb =>
  exec_push_pushed (i := .pushAck seq) rfl rfl hb (.of_ne nofun)

/-- Settles O41: the same rows, with the NAK type and sequence 0. -/
theorem pushNakAtEveryCapacity : Obligations.PushNakAtEveryCapacity := fun _ hb =>
  exec_push_pushed (i := .pushNak) rfl rfl hb (.of_ne nofun)

/-- Settles O42: a payload of at most 65527 bytes is in range, so the recipe runs. -/
theorem pushCmdAtEveryCapacity : Obligations.PushCmdAtEveryCapacity := by
  intro s seq rqid tc tid iid cid payload hb hlen
  exact exec_push_pushed (i := .pushCmd seq rqid tc tid iid cid payload) rfl (decide_eq_false (by omega)) hb (.of_ne nofun)

/-! ## The status of a push -/

/-- A payload that passes the `length` field is refused under a binding (43_builders.md R133). -/
theorem exec_payloadOutOfRange {i : Instr} {s : State} (hrange : payloadOutOfRange i = true) (hb : s.bound = true) :
    exec i s = .next (s.respond .range 0) := by
  cases i with
  | pushCmd seq rqid tc tid iid cid payload =>
    have hlong : decide (65535 < 8 + payload.length) = true := hrange
    simp only [exec, execPushCmd, refuse, hb, hlong, Bool.and_self, if_true]
  | _ => cases hrange

/-- Settles O43: the range check is `8 + n` against the 16-bit field, and a push that runs ends `OK` or `CAPACITY`. -/
theorem pushCmdTooLongIsRefused : Obligations.PushCmdTooLongIsRefused := by
  intro s seq rqid tc tid iid cid payload hb
  refine ⟨fun hlong => exec_payloadOutOfRange (decide_eq_true (by omega)) hb, fun hshort => ⟨?_, ?_⟩⟩
  · rw [cmdLength, BitVec.toNat_ofNat]
    omega
  · obtain ⟨t, ht, hv⟩ := pushCmdAtEveryCapacity s seq rqid tc tid iid cid payload hb hshort
    refine ⟨t, ht, ?_⟩
    rw [status_of_pushed hv]
    split_ifs <;> decide

/-- Settles O44: with the guard every copy runs as a guarded write. -/
theorem statusOkIffTheOutputFits : Obligations.StatusOkIffTheOutputFits := by
  intro i s hi hrange hb hpos hguard
  obtain ⟨t, ht, hv⟩ := exec_push_pushed hi hrange hb fun _ _ => ⟨hpos, .inl hguard⟩
  refine ⟨t, ht, ?_⟩
  simp only [status_of_pushed hv, decide_eq_true_eq, State.pos_add_le_iff_room (.inr hpos)]

/-- A push that answered a next state in a bound window did not stop at its copy. -/
theorem CopyRuns.of_exec {i : Instr} {s t : State} (hb : s.bound = true) (hpos : s.pos ≤ s.endAddr)
    (h : exec i s = .next t) : CopyRuns i s := by
  rintro data rfl
  refine ⟨hpos, ?_⟩
  by_contra hstops
  obtain ⟨hbare, hshort⟩ := not_or.mp hstops
  rw [← State.pos_add_le_iff_room (.inr hpos), Nat.not_le] at hshort
  rw [(pushBytesUnguarded s data hb (Bool.eq_false_of_not_eq_true hbare)).2 hshort] at h
  cases h

/-- Whether a copy runs depends on the configuration and the remaining capacity alone. -/
theorem CopyRuns.congr {i : Instr} {s u : State} (h : CopyRuns i s) (hcfg : s.cfg = u.cfg) (hroom : s.room = u.room)
    (hpos : u.pos ≤ u.endAddr) : CopyRuns i u := by
  intro data hi
  rw [← hcfg, ← hroom]
  exact ⟨hpos, (h data hi).2⟩

/-- Settles O45: refused in both, or each appends the one output of this configuration and capacity. -/
theorem outputDependsOnRoomAlone : Obligations.OutputDependsOnRoomAlone := by
  intro i s u t hi hcfg hbs hbu hps hpu (hroom : s.room = u.room) h
  cases hrange : payloadOutOfRange i
  · have hcopy := CopyRuns.of_exec hbs hps h
    obtain ⟨t', ht', hv⟩ := exec_push_pushed hi hrange hbs hcopy
    obtain rfl : t' = t := Host.Outcome.next.inj (ht'.symm.trans h)
    obtain ⟨v, hexec, hw⟩ := exec_push_pushed hi hrange hbu (hcopy.congr hcfg hroom hpu)
    rw [← hcfg, ← hroom] at hw
    refine ⟨v, _, hexec, mem_of_pushed hv, mem_of_pushed hw, pos_of_pushed hv, pos_of_pushed hw, ?_, fun hovf => ?_⟩
    · rw [resp_of_pushed hv, resp_of_pushed hw]
    · rw [ovf_of_pushed hv, ovf_of_pushed hw, hovf]
  · obtain rfl : s.respond .range 0 = t := Host.Outcome.next.inj ((exec_payloadOutOfRange hrange hbs).symm.trans h)
    exact ⟨_, [], exec_payloadOutOfRange hrange hbu, rfl, rfl, rfl, rfl, rfl, id⟩

end Sys2Proof.Machine
end

section
/-! The expansion laws: a builder against the primitives it is made of (43_builders.md R135). -/

namespace Sys2Proof.Machine

/-! ## One push after another -/

/-- What a push leaves visible does not depend on hidden state. -/
theorem State.pushed_visible_congr {s u : State} (h : u.visible = s.visible) (out : List Byte) (complete : Bool) :
    (u.pushed out complete).visible = (s.pushed out complete).visible :=
  calc (u.pushed out complete).visible
    _ = (u.visible.pushed out complete).visible := rfl
    _ = (s.visible.pushed out complete).visible := by rw [h]

/-- After a push that ended `OK`, another one appends behind it. -/
theorem State.pushed_pushed (s : State) (d e : List Byte) (complete : Bool) :
    (s.pushed d true).pushed e complete = s.pushed (d ++ e) complete := by
  simp [State.pushed, Memory.writeSeq_append, Nat.add_assoc]

theorem State.pushed_visible_trans {s t u : State} {d e : List Byte} {complete : Bool}
    (h : t.visible = (s.pushed d true).visible) (g : u.visible = (t.pushed e complete).visible) :
    u.visible = (s.pushed (d ++ e) complete).visible := by
  rw [g, State.pushed_visible_congr h, State.pushed_pushed]

/-! ## `PUSH_ACK`, `PUSH_NAK` and `PUSH_FRAME` -/

/-- A push that appends what three others append one after another, and ends `OK` where all three do, has their effect. -/
theorem effect_eq_of_three_pushed {s t t1 t2 t3 : State} {d e f : List Byte} {j k l : Bool}
    (h : t.visible = (s.pushed (d ++ e ++ f) (j && k && l)).visible) (h1 : t1.visible = (s.pushed d j).visible)
    (h2 : t2.visible = (t1.pushed e k).visible) (h3 : t3.visible = (t2.pushed f l).visible) :
    t.mem = t3.mem ∧ t.pos = t3.pos ∧ t.ovf = t3.ovf ∧
      (t.status = some .capacity ↔
        t1.status = some .capacity ∨ t2.status = some .capacity ∨ t3.status = some .capacity) := by
  have hpos2 : t2.pos = s.pos + (d ++ e).length := by
    rw [pos_of_pushed h2, pos_of_pushed h1, List.length_append, Nat.add_assoc]
  refine ⟨?_, ?_, ?_, ?_⟩
  · rw [mem_of_pushed h, mem_of_pushed h3, hpos2, mem_of_pushed h2, mem_of_pushed h1, pos_of_pushed h1,
      Memory.writeSeq_append, Memory.writeSeq_append]
  · rw [pos_of_pushed h, pos_of_pushed h3, hpos2, Nat.add_assoc, ← List.length_append]
  · rw [ovf_of_pushed h, ovf_of_pushed h3, ovf_of_pushed h2, ovf_of_pushed h1, Bool.not_and, Bool.not_and,
      Bool.or_assoc, Bool.or_assoc, Bool.or_assoc]
  · rw [status_of_pushed h, status_of_pushed h1, status_of_pushed h2, status_of_pushed h3]
    cases j <;> cases k <;> cases l <;> decide

/-- A frame without payload has the effect of its three parts, whatever of them is skipped. -/
theorem shortFrame_expands (type seq : Byte) {s : State} (hb : s.bound = true) :
    ∃ t t1 t2 t3, runPush (shortFrameRecipe type seq) s = .next t ∧ exec .pushSyn s = .next t1 ∧
      exec (.pushFrame type 0 seq) t1 = .next t2 ∧ exec (.pushCrc []) t2 = .next t3 ∧
      t.mem = t3.mem ∧ t.pos = t3.pos ∧ t.ovf = t3.ovf ∧
      (t.status = some .capacity ↔
        t1.status = some .capacity ∨ t2.status = some .capacity ∨ t3.status = some .capacity) := by
  obtain ⟨t, ht, hv⟩ := runPush_pushed_of_room hb (shortFrameRecipe_appended type seq s.start)
  obtain ⟨t1, ht1, hv1⟩ := exec_push_pushed (i := .pushSyn) rfl rfl hb (.of_ne nofun)
  have hb1 := (bound_of_pushed hv1).trans hb
  obtain ⟨t2, ht2, hv2⟩ := exec_push_pushed (i := .pushFrame type 0 seq) rfl rfl hb1 (.of_ne nofun)
  have hb2 := (bound_of_pushed hv2).trans hb1
  obtain ⟨t3, ht3, hv3⟩ := exec_push_pushed (i := .pushCrc []) rfl rfl hb2 (.of_ne nofun)
  refine ⟨t, t1, t2, t3, ht, ht1, ht2, ht3, effect_eq_of_three_pushed ?_ hv1 hv2 hv3⟩
  rw [room_of_pushed hv2, room_of_pushed hv1, cfg_of_pushed hv2, cfg_of_pushed hv1, Nat.sub_sub, ← List.length_append]
  have hcomplete := Bool.decide_congr (synFrame_complete_iff s.cfg type 0 seq s.room 2)
  rw [Bool.decide_and, Bool.decide_and] at hcomplete
  rw [hv, State.start_cfg, State.start_room, shortFrameAt_eq_parts, ← hcomplete]
  rfl

/-- Settles O46: both are frames without payload. -/
theorem ackAndNakExpand : Obligations.AckAndNakExpand := fun s q hb =>
  ⟨shortFrame_expands s.cfg.tAck q hb, shortFrame_expands s.cfg.tNak 0 hb⟩

/-- A frame body whose header fits is its header and then the checksum of it. -/
theorem frameAt_of_header_fits (c : Config) (type : Byte) (length : Half) (seq : Byte) {r : Nat} (h : 4 ≤ r) :
    frameAt c type length seq r =
      frameHeader type length seq ++ crcAt c (frameHeader type length seq) (r - 4) := by
  rw [frameAt, crcAt, if_pos h]
  by_cases h6 : 6 ≤ r
  · rw [if_pos h6, if_pos (by omega)]
    rfl
  · rw [if_neg h6, if_neg (by omega), List.append_nil]

/-- Settles O47: where the header fits, the two commands even end in states equal in everything visible. -/
theorem frameExpandsWhereTheHeaderFits : Obligations.FrameExpandsWhereTheHeaderFits := by
  intro s type length seq hb hfit
  have hroom : 4 ≤ s.room := (State.pos_add_le_iff_room (.inl (by decide))).mp hfit
  obtain ⟨t, ht, hv⟩ := exec_push_pushed (i := .pushFrame type length seq) rfl rfl hb (.of_ne nofun)
  obtain ⟨t1, ht1, hv1⟩ := exec_pushBytes_of_fits (data := frameHeader type length seq) hb hfit
  obtain ⟨t2, ht2, hv2⟩ := exec_push_pushed (i := .pushCrc (frameHeader type length seq)) rfl rfl
    ((bound_of_pushed hv1).trans hb) (.of_ne nofun)
  have hsame : t.visible = t2.visible := by
    have houtput : pushOutput s.cfg s.room (.pushFrame type length seq) =
        frameHeader type length seq ++ pushOutput s.cfg (s.room - 4) (.pushCrc (frameHeader type length seq)) :=
      frameAt_of_header_fits s.cfg type length seq hroom
    have hcomplete : decide (byteCount (.pushFrame type length seq) ≤ s.room) =
        decide (byteCount (.pushCrc (frameHeader type length seq)) ≤ s.room - 4) :=
      Bool.decide_congr (by simp only [byteCount]; omega)
    rw [hv, State.pushed_visible_trans hv1 hv2, cfg_of_pushed hv1, room_of_pushed hv1, frameHeader_length, houtput,
      hcomplete]
  refine ⟨t, t1, t2, ht, ht1, ht2, (congrArg State.mem hsame :), (congrArg State.pos hsame :),
    (congrArg State.ovf hsame :), ?_⟩
  have hstatus : t.status = t2.status := (congrArg State.status hsame :)
  simp [hstatus, status_of_pushed hv1]

/-! ## `PUSH_CMD` -/

/-- The bytes of a push with nothing skipped (20_memory.md R35; 30_encoding.md R51, R53, R54, R56). -/
def wholeOutput (c : Config) : Instr → List Byte
  | .init _ _ => []
  | .bytesUsed => []
  | .pushU16 value => le16 value
  | .pushBytes data => data
  | .pushCrc data => crcBytes c data
  | .pushSyn => synMarker c
  | .pushFrame type length seq => headerBytes c type length seq
  | .pushAck seq => shortFrame c c.tAck seq
  | .pushNak => shortFrame c c.tNak 0
  | .pushCmd seq rqid tc tid iid cid payload => cmdFrame c seq rqid tc tid iid cid payload

theorem wholeOutput_length {i : Instr} (c : Config) : (wholeOutput c i).length = byteCount i := by
  cases i with
  | pushCmd seq rqid tc tid iid cid payload => exact cmdFrame_length ..
  | _ => rfl

theorem shortFrameAt_of_le (c : Config) (type seq : Byte) {r : Nat} (h : 10 ≤ r) :
    shortFrameAt c type seq r = shortFrame c type seq := by
  unfold shortFrameAt
  simp (disch := omega) only [if_neg]

theorem cmdFrameAt_of_le (c : Config) (seq : Byte) (rqid : Half) (tc tid iid cid : Byte) {payload : List Byte} {r : Nat}
    (h : 18 + payload.length ≤ r) :
    cmdFrameAt c seq rqid tc tid iid cid payload r = cmdFrame c seq rqid tc tid iid cid payload := by
  unfold cmdFrameAt
  simp (disch := omega) only [if_neg]

theorem pushOutput_of_le {i : Instr} (c : Config) {r : Nat} (h : byteCount i ≤ r) :
    pushOutput c r i = wholeOutput c i := by
  cases i with
  | init | bytesUsed => rfl
  | pushAck seq => exact shortFrameAt_of_le c c.tAck seq h
  | pushNak => exact shortFrameAt_of_le c c.tNak 0 h
  | pushCmd seq rqid tc tid iid cid payload => exact cmdFrameAt_of_le c seq rqid tc tid iid cid h
  | pushU16 | pushBytes | pushCrc | pushSyn | pushFrame => exact if_pos h

/-- A push whose whole output fits, on an engine with the guard or without. -/
theorem exec_push_of_fits {i : Instr} {s : State} (hi : isPush i = true) (hrange : payloadOutOfRange i = false)
    (hb : s.bound = true) (hfit : s.pos + byteCount i ≤ s.endAddr) :
    ∃ t, exec i s = .next t ∧ t.visible = (s.pushed (wholeOutput s.cfg i) true).visible := by
  have hpos : s.pos ≤ s.endAddr := by omega
  have hroom : byteCount i ≤ s.room := (State.pos_add_le_iff_room (.inr hpos)).mp hfit
  have hcopy : CopyRuns i s := by
    rintro data rfl
    exact ⟨hpos, .inr hroom⟩
  simpa only [pushOutput_of_le s.cfg hroom, decide_eq_true hroom] using exec_push_pushed hi hrange hb hcopy

/-- The same after pushes that have appended `d`. -/
theorem exec_push_after {i : Instr} {s u : State} {d : List Byte} (hu : u.visible = (s.pushed d true).visible)
    (hi : isPush i = true) (hrange : payloadOutOfRange i = false) (hb : s.bound = true)
    (hfit : s.pos + (d.length + byteCount i) ≤ s.endAddr) :
    ∃ t, exec i u = .next t ∧ t.visible = (s.pushed (d ++ wholeOutput s.cfg i) true).visible := by
  have hpos := pos_of_pushed hu
  have hend := endAddr_of_pushed hu
  obtain ⟨t, ht, hv⟩ := exec_push_of_fits hi hrange ((bound_of_pushed hu).trans hb) (s := u) (by omega)
  rw [cfg_of_pushed hu] at hv
  exact ⟨t, ht, State.pushed_visible_trans hu hv⟩

/-- Settles O48: the five primitives append the parts of the frame one behind the other. -/
theorem cmdExpandsWhereTheFrameFits : Obligations.CmdExpandsWhereTheFrameFits := by
  intro s seq rqid tc tid iid cid payload hb hlen hfit
  obtain ⟨t, ht, hv⟩ := exec_push_of_fits (i := .pushCmd seq rqid tc tid iid cid payload) rfl
    (decide_eq_false (by omega)) hb hfit
  obtain ⟨t1, ht1, hv1⟩ := exec_push_of_fits (i := .pushSyn) rfl rfl hb (by simp only [byteCount]; omega)
  obtain ⟨t2, ht2, hv2⟩ := exec_push_after (i := .pushFrame s.cfg.tDseq (BitVec.ofNat 16 (8 + payload.length)) seq) hv1
    rfl rfl hb (by simp only [wholeOutput_length, byteCount]; omega)
  obtain ⟨t3, ht3, hv3⟩ := exec_push_after (i := .pushBytes (blockBytes s.cfg rqid tc tid iid cid)) hv2
    rfl rfl hb (by simp only [List.length_append, wholeOutput_length, byteCount, blockBytes_length]; omega)
  obtain ⟨t4, ht4, hv4⟩ := exec_push_after (i := .pushBytes payload) hv3
    rfl rfl hb (by simp only [List.length_append, wholeOutput_length, byteCount, blockBytes_length]; omega)
  obtain ⟨t5, ht5, hv5⟩ := exec_push_after (i := .pushCrc (blockBytes s.cfg rqid tc tid iid cid ++ payload)) hv4
    rfl rfl hb (by simp only [List.length_append, wholeOutput_length, byteCount, blockBytes_length]; omega)
  refine ⟨t, t1, t2, t3, t4, t5, ht, ht1, ht2, ht3, ht4, ht5, ?_, status_of_pushed hv⟩
  rw [hv, hv5]
  simp only [wholeOutput, cmdFrame, synMarker, List.append_assoc]

end Sys2Proof.Machine
end

section
/-! The bytes of a whole frame read back (30_encoding.md R51 to R58; 43_builders.md R137). -/

namespace Sys2Proof.Machine

/-- The output of a push that fits stands in memory from the old `POS` on. -/
theorem read_of_push_of_fits {i : Instr} {s t : State} (hi : isPush i = true) (hrange : payloadOutOfRange i = false)
    (hb : s.bound = true) (hfit : s.pos + byteCount i ≤ s.endAddr) (h : exec i s = .next t) {k : Nat}
    (hk : k < byteCount i) : Memory.read t.mem (s.pos + k) = (wholeOutput s.cfg i)[k]? := by
  obtain ⟨t', ht', hv⟩ := exec_push_of_fits hi hrange hb hfit
  obtain rfl : t' = t := Host.Outcome.next.inj (ht'.symm.trans h)
  rw [← wholeOutput_length s.cfg] at hk
  rw [mem_of_pushed hv, Memory.read_writeSeq_inside _ _ _ _ hk, List.getElem?_eq_getElem hk]

/-- What stands at and after offset 8 of a command frame: the block and its checksum. -/
theorem cmdFrame_getElem?_add_eight (c : Config) (seq : Byte) (rqid : Half) (tc tid iid cid : Byte) (payload : List Byte)
    (k : Nat) :
    (cmdFrame c seq rqid tc tid iid cid payload)[8 + k]? =
      (blockBytes c rqid tc tid iid cid ++ payload ++ crcBytes c (blockBytes c rqid tc tid iid cid ++ payload))[k]? := by
  have hhead : ([c.syn0, c.syn1] ++ headerBytes c c.tDseq (BitVec.ofNat 16 (8 + payload.length)) seq).length = 8 := rfl
  rw [cmdFrame, List.append_assoc, List.getElem?_append_right (hhead ▸ Nat.le_add_right 8 k), hhead,
    Nat.add_sub_cancel_left]

section
variable (c : Config) (seq : Byte) (rqid : Half) (tc tid iid cid : Byte) (payload : List Byte)

theorem cmdFrame_getElem?_block {k : Nat} (hk : k < 8 + payload.length) :
    (cmdFrame c seq rqid tc tid iid cid payload)[8 + k]? = (blockBytes c rqid tc tid iid cid ++ payload)[k]? := by
  rw [cmdFrame_getElem?_add_eight, List.getElem?_append_left (by rwa [List.length_append, blockBytes_length])]

theorem cmdFrame_getElem?_payload {k : Nat} (hk : k < payload.length) :
    (cmdFrame c seq rqid tc tid iid cid payload)[16 + k]? = payload[k]? := by
  rw [show 16 + k = 8 + (8 + k) by omega, cmdFrame_getElem?_block _ _ _ _ _ _ _ _ (by omega),
    List.getElem?_append_right (Nat.le_add_right 8 k), blockBytes_length, Nat.add_sub_cancel_left]

theorem cmdFrame_getElem?_crc (k : Nat) :
    (cmdFrame c seq rqid tc tid iid cid payload)[16 + payload.length + k]? =
      (crcBytes c (blockBytes c rqid tc tid iid cid ++ payload))[k]? := by
  have hblock : (blockBytes c rqid tc tid iid cid ++ payload).length = 8 + payload.length := by
    rw [List.length_append, blockBytes_length]
  rw [show 16 + payload.length + k = 8 + (8 + payload.length + k) by omega, cmdFrame_getElem?_add_eight,
    List.getElem?_append_right (hblock ▸ Nat.le_add_right _ k), hblock, Nat.add_sub_cancel_left]

end

/-- A 16-bit value is the number its two bytes spell (20_memory.md R31). -/
theorem lo8_add_hi8 (v : Half) : (lo8 v).toNat + 256 * (hi8 v).toNat = v.toNat := by
  simp only [lo8, hi8, BitVec.extractLsb'_toNat, Nat.shiftRight_eq_div_pow]
  omega

/-- Settles O50: each field is read off the frame at its offset. -/
theorem cmdFieldsStandAtTheirOffsets : Obligations.CmdFieldsStandAtTheirOffsets := by
  intro s t seq rqid tc tid iid cid payload hb hlen hfit h
  have hread : ∀ k, k < 18 + payload.length →
      Memory.read t.mem (s.pos + k) = (cmdFrame s.cfg seq rqid tc tid iid cid payload)[k]? := fun k hk =>
    read_of_push_of_fits (i := .pushCmd seq rqid tc tid iid cid payload) rfl (decide_eq_false (by omega)) hb hfit h hk
  have hlength := (pushCmdTooLongIsRefused s seq rqid tc tid iid cid payload hb).2 hlen |>.1
  refine ⟨hread 2 (by omega), ⟨_, _, hread 3 (by omega), hread 4 (by omega), (lo8_add_hi8 _).trans hlength⟩,
    hread 5 (by omega), ⟨frameHeader s.cfg.tDseq (cmdLength payload) seq, fun k hk => ?_, rfl, hread 6 (by omega),
      hread 7 (by omega)⟩, hread 8 (by omega), hread 9 (by omega), hread 10 (by omega), hread 11 (by omega),
    hread 12 (by omega), hread 13 (by omega), hread 14 (by omega), hread 15 (by omega), fun k hk => ?_,
    ⟨blockBytes s.cfg rqid tc tid iid cid ++ payload, fun k hk => ?_, ?_, ?_, ?_⟩⟩
  · rw [Nat.add_assoc, hread _ (by omega)]
    interval_cases k <;> rfl
  · rw [Nat.add_assoc, hread _ (by omega), cmdFrame_getElem?_payload _ _ _ _ _ _ _ _ hk]
  · rw [Nat.add_assoc, hread _ (by omega), cmdFrame_getElem?_block _ _ _ _ _ _ _ _ hk]
  · rw [List.length_append, blockBytes_length]
  · rw [Nat.add_assoc, hread _ (by omega)]
    exact cmdFrame_getElem?_crc s.cfg seq rqid tc tid iid cid payload 0
  · rw [Nat.add_assoc, hread _ (by omega), show 17 + payload.length = 16 + payload.length + 1 by omega]
    exact cmdFrame_getElem?_crc s.cfg seq rqid tc tid iid cid payload 1

/-- The frame types of ACK and NAK are distinct (00_scope.md R8). -/
theorem Config.tAck_ne_tNak {c : Config} (h : c.wf = true) : c.tAck ≠ c.tNak := by
  simp only [Config.wf, Bool.and_eq_true, decide_eq_true_eq] at h
  exact h.2

/-- Settles O51: the ten bytes of each frame, offset by offset. -/
theorem ackAgainstNak : Obligations.AckAgainstNak := by
  intro s t u q hwf hb hfit ht hu
  have hack : ∀ k, k < 10 → Memory.read t.mem (s.pos + k) = (shortFrame s.cfg s.cfg.tAck q)[k]? := fun k hk =>
    read_of_push_of_fits (i := .pushAck q) rfl rfl hb hfit ht hk
  have hnak : ∀ k, k < 10 → Memory.read u.mem (s.pos + k) = (shortFrame s.cfg s.cfg.tNak 0)[k]? := fun k hk =>
    read_of_push_of_fits (i := .pushNak) rfl rfl hb hfit hu hk
  have htype := Config.tAck_ne_tNak hwf
  refine ⟨fun k hk => ?_, ?_, ?_, hack 6 (by omega), hack 7 (by omega), hnak 6 (by omega), hnak 7 (by omega)⟩
  · simp only [List.mem_cons, List.not_mem_nil, or_false] at hk
    rw [hack k (by omega), hnak k (by omega)]
    obtain rfl | rfl | rfl | rfl | rfl | rfl := hk <;> simp [shortFrame, crcBytes]
  · rw [hack 2 (by omega), hnak 2 (by omega)]
    simpa [shortFrame] using htype
  · rw [hack 5 (by omega), hnak 5 (by omega)]
    simp [shortFrame]

end Sys2Proof.Machine
end

section
/-! The other moves at the port, and the refusal of every operation but `INIT` while `BOUND = 0` (60_exceptions.md R156,
R168; 70_reset_and_hazards.md R175, R187). -/

namespace Sys2Proof.Machine

/-! ## The host's moves other than a command -/

theorem step_of_idle {s : State} (hport : s.port = []) : step s = .next s := by
  simp only [step, serve, hport]

theorem step_of_reset {s : State} {rest : List HostMove} (hport : s.port = .reset :: rest) :
    step s = .next { s with port := rest }.resetEngine := by
  simp only [step, serve, hport, meetMove]

theorem step_of_write {s : State} {a : Nat} {b : Byte} {rest : List HostMove} (hport : s.port = .write a b :: rest) :
    step s = hostWrite a b { s with port := rest } := by
  simp only [step, serve, hport, meetMove]

theorem hostWrite_of_lt {s : State} {a : Nat} (b : Byte) (ha : a < s.cfg.addrTop) :
    hostWrite a b s = .next { s with mem := Memory.write s.mem a b } := if_pos ha

theorem hostWrite_of_le {s : State} {a : Nat} (b : Byte) (ha : s.cfg.addrTop ≤ a) :
    hostWrite a b s = .fault .noSuchAddress := if_neg (Nat.not_lt.mpr ha)

/-- Settles O10: one equation of the step per move; after a host write memory reads as `Memory.read_write` says. -/
theorem hostMovesBetweenCommands : Obligations.HostMovesBetweenCommands := by
  refine ⟨fun s => step_of_idle, fun s rest hport => ?_, fun s a b rest hport => ⟨fun ha => ?_, fun ha => ?_⟩⟩
  · exact ⟨_, step_of_reset hport, rfl, rfl, rfl, rfl, rfl, rfl, rfl, rfl, rfl, rfl⟩
  · exact ⟨_, (step_of_write hport).trans (hostWrite_of_lt b ha), rfl, Memory.read_write s.mem a b⟩
  · exact (step_of_write hport).trans (hostWrite_of_le b ha)

/-! ## Operations without a binding -/

/-- Settles O27: the refusal changes the response alone. -/
theorem unboundOperationIsRefused : Obligations.UnboundOperationIsRefused := fun _ _ => exec_unbound

end Sys2Proof.Machine
end
